-- ==== Sys2Proof/Word.lean ====
section
/-! DEFINITION. The data words of SEQ: the command word, the PhaseStep word, the pin-write word, and the fixed
sizes of `00_scope.md` R8 as the sizes of their containers. All values are unsigned (00_scope.md section 6). -/

namespace Sys2Proof

/-- Format `CMD2`, the command word (30_encoding.md R28). -/
abbrev Cmd2 := BitVec 2

/-- Format `ROW4`, one PhaseStep packed with column 0 at bit 3 (30_encoding.md R29). -/
abbrev Row := BitVec 4

/-- Format `SETPIN`, a pin write as carried on the write port (30_encoding.md R30). -/
abbrev SetPinWord := BitVec 4

/-- A PhaseTable: exactly 8 rows of exactly 4 values (40_step_table.md R37). -/
abbrev Table := Vector Row 8

/-- The level of each of the eight outputs, by logical pin (10_state.md R16). -/
abbrev Pins := Vector Bool 8

/-- An identifier of a physical output.  The spec leaves the type open (92 D2): DESIGN CHOICE, log 4. -/
abbrev PinId := Nat

/-- The number of 1 bits of a row (00_scope.md section 6). -/
def popcount (r : Row) : Nat :=
  (r.getLsbD 0).toNat + (r.getLsbD 1).toNat + (r.getLsbD 2).toNat + (r.getLsbD 3).toNat

/-- A positive rational quantity as a fraction `num / den`: a duration in microseconds, or a frequency in cycles per
microsecond (00_scope.md R9; log 5). -/
structure Quantity where
  num : Nat
  den : Nat
deriving DecidableEq, Repr

/-- Greater than zero, as R9 requires of `STEP_DELAY` and `F_CLK`. -/
def Quantity.positive (q : Quantity) : Bool := decide (0 < q.num) && decide (0 < q.den)

/-- `a ≤ b` for fractions with positive denominators. -/
def Quantity.le (a b : Quantity) : Bool := decide (a.num * b.den ≤ b.num * a.den)

end Sys2Proof
end

