-- ==== Sys2Proof/Syntax.lean ====
section
/-! DEFINITION. The commands of SEQ, one constructor per row of spec/opcode_table.json, and the names its rules use:
the two tables, the two motors, and the events of `TRACE`. -/

namespace Sys2Proof

/-- The four commands, the complete command set (30_encoding.md R31).  None has an operand beyond its two flag bits,
and the flag bits are the opcode (R28).  The names are labels without physical meaning (92 D20). -/
inductive Instr where
  /-- `move(false, false)`, `CMD2 = 0b00` (41_move.md R51). -/
  | down
  /-- `move(false, true)`, `CMD2 = 0b01` (41_move.md R50). -/
  | up
  /-- `move(true, false)`, `CMD2 = 0b10` (41_move.md R49). -/
  | left
  /-- `move(true, true)`, `CMD2 = 0b11` (41_move.md R48). -/
  | right
deriving DecidableEq, Repr

/-- The two phase tables, `FWD` (FORWARD_TABLE) and `BWD` (BACKWARD_TABLE) (10_state.md R10). -/
inductive TableSel where
  | fwd
  | bwd
deriving DecidableEq, Repr

/-- The two motors, numbered 1 and 2 as in the source (00_scope.md section 6). -/
inductive Motor where
  | one
  | two
deriving DecidableEq, Repr

/-- The events of `TRACE` (10_state.md R18). -/
inductive Event where
  /-- A command was accepted with flags `f1`, `f2` (41_move.md R53). -/
  | accept (f1 f2 : Bool)
  /-- Logical pin `j` was written with level `v` (42_interfaces.md R63). -/
  | setPin (j : Fin 8) (v : Bool)
  /-- A delay was served (41_move.md R55). -/
  | delay
  /-- The move ended (41_move.md R55). -/
  | done
  /-- A reset was applied (70_reset_and_hazards.md R82). -/
  | reset
deriving DecidableEq, Repr

/-- The four logical buttons of the input decoder (42_interfaces.md R64). -/
inductive Button where
  | left
  | down
  | right
  | up
deriving DecidableEq, Repr

end Sys2Proof
end

