-- ==== Sys2Proof/WellFormed.lean ====
section
/-! DEFINITION. What is well formed: every command (30_encoding.md R34 leaves none out), and the configurations
that meet the constraints of `00_scope.md` R9 and `70_reset_and_hazards.md` R84(1). -/

namespace Sys2Proof

/-- Every command is well formed: "all 4 combinations valid", there is no illegal or reserved encoding
(30_encoding.md R34). -/
def Instr.wellFormed : Instr → Bool
  | .down => true
  | .up => true
  | .left => true
  | .right => true

/-- Row 0 of `FWD` (40_step_table.md R38). -/
def fwdRow0 : Row := 0b1001#4

/-- Row 0 of `BWD` (40_step_table.md R38). -/
def bwdRow0 : Row := 0b0001#4

/-- Adjacency: rows `i` and `(i+1) mod 8` differ in exactly one column, for every `i` (40_step_table.md R39). -/
def adjacent (t : Table) : Bool :=
  (List.finRange 8).all fun i => popcount (t[i] ^^^ t[i + 1]) == 1

/-- The eight identifiers are pairwise distinct (20_memory.md R26). -/
def pinsDistinct (m1 m2 : Vector PinId 4) : Bool :=
  decide (m1.toList ++ m2.toList).Nodup

/-- The parameters the source leaves open (00_scope.md R9, Table R9). -/
structure Parameters where
  /-- `FWD` (R10). -/
  fwd : Table
  /-- `BWD` (R10), its own table: no relation to `FWD` is assumed (R41). -/
  bwd : Table
  /-- `M1_PINS` (R11): element `k` is the output that column `k` drives. -/
  m1Pins : Vector PinId 4
  /-- `M2_PINS` (R11). -/
  m2Pins : Vector PinId 4
  /-- `STEP_DELAY`, in microseconds (R58). -/
  stepDelay : Quantity
  /-- `F_CLK`, in cycles per microsecond (R91). -/
  fClk : Quantity
  /-- `PIN_RESET`, one level per logical pin (R82). -/
  pinReset : Pins
deriving DecidableEq, Repr

/-- Why a configuration is refused at configuration time (20_memory.md R26, 60_exceptions.md R70, 93 U2, U4). -/
inductive ConfigProblem where
  /-- A table has not exactly 8 rows (R37). -/
  | tableShape
  /-- A pin set has not exactly 4 identifiers (R11). -/
  | pinSetShape
  /-- `PIN_RESET` has not exactly 8 levels (R9). -/
  | pinResetShape
  /-- Row 0 of a table is not the source's (R38). -/
  | rowZero
  /-- Two consecutive rows do not differ in exactly one column (R39). -/
  | adjacency
  /-- Two of the eight pin identifiers are equal (R26). -/
  | pinOverlap
  /-- `STEP_DELAY` is not greater than 0 (R9). -/
  | stepDelay
  /-- `F_CLK` is not greater than 0 (R9). -/
  | clock
deriving DecidableEq, Repr

/-- A configuration as it is offered, before anything about it is checked. -/
structure RawConfig where
  fwd : List Row
  bwd : List Row
  m1Pins : List PinId
  m2Pins : List PinId
  stepDelay : Quantity
  fClk : Quantity
  pinReset : List Bool
deriving DecidableEq, Repr

/-- The first constraint of Table R9 that typed parameters break, by name: R38 and R39 for the tables (R37 is their
type), R26 for the pins, and the two quantities greater than 0.  None where the parameters are admissible;
`PIN_RESET` has no constraint. -/
def Parameters.problem (p : Parameters) : Option ConfigProblem :=
  if (p.fwd[0] == fwdRow0 && p.bwd[0] == bwdRow0) = false then some .rowZero
  else if (adjacent p.fwd && adjacent p.bwd) = false then some .adjacency
  else if pinsDistinct p.m1Pins p.m2Pins = false then some .pinOverlap
  else if p.stepDelay.positive = false then some .stepDelay
  else if p.fClk.positive = false then some .clock
  else none

/-- A list as a container of the size the spec fixes, or none where it has another length. -/
def sized {α : Type} (n : Nat) (l : List α) : Option (Vector α n) :=
  if h : l.length = n then some ⟨l.toArray, by simpa using h⟩ else none

/-- The shape checks (R37, R11, R9): an offered configuration as typed parameters. -/
def RawConfig.typed (r : RawConfig) : Except ConfigProblem Parameters :=
  match sized 8 r.fwd, sized 8 r.bwd with
  | some fwd, some bwd =>
    match sized 4 r.m1Pins, sized 4 r.m2Pins with
    | some m1Pins, some m2Pins =>
      match sized 8 r.pinReset with
      | some pinReset => .ok ⟨fwd, bwd, m1Pins, m2Pins, r.stepDelay, r.fClk, pinReset⟩
      | none => .error .pinResetShape
    | _, _ => .error .pinSetShape
  | _, _ => .error .tableShape

end Sys2Proof
end

