-- ==== Sys2Proof/Config.lean ====
section
/-! DEFINITION. The configuration of SEQ: the parameters of `00_scope.md` R9 together with the proof that they meet
their constraints, so that an ill-formed configuration cannot be built; the refusal of one by name; and the free
configuration the machine starts from. -/

namespace Sys2Proof

/-- The reference instance `REF_TABLES` of 40_step_table.md R45 with the defaults the spec offers in Table R9 and
`F_CLK` = 1 MHz.  NOT the source's tables (R45): it is used in tests only, and as the witness that the
constraints can be met. -/
def refParameters : Parameters where
  fwd := #v[0b1001#4, 0b1000#4, 0b1100#4, 0b0100#4, 0b0110#4, 0b0010#4, 0b0011#4, 0b0001#4]
  bwd := #v[0b0001#4, 0b0011#4, 0b0010#4, 0b0110#4, 0b0100#4, 0b1100#4, 0b1000#4, 0b1001#4]
  m1Pins := #v[0, 1, 2, 3]
  m2Pins := #v[4, 5, 6, 7]
  stepDelay := ⟨1000, 1⟩
  fClk := ⟨1, 1⟩
  pinReset := #v[false, false, false, false, false, false, false, false]

/-- A configuration: parameters that meet the constraints of 00_scope.md R9 (70_reset_and_hazards.md R84(1)).  The
default values serve one purpose, the proof that the type has a member; no configuration of the machine is given
them silently. -/
structure Config where
  params : Parameters := refParameters
  admissible : params.problem = none := by decide
deriving DecidableEq, Repr, Inhabited

/-- The configuration with `REF_TABLES`, for tests (40_step_table.md R45). -/
def Config.ref : Config := ⟨refParameters, by decide⟩

/-- The free configuration of the machine after reset: `FWD`, `BWD`, `M1_PINS`, `M2_PINS`, `STEP_DELAY`, `F_CLK` and
`PIN_RESET` are OPEN (92, "Parameters left OPEN").  It has no body: nothing is known of it but what its type says,
that it meets the constraints of R9.  Log 3. -/
opaque Config.board : Config

/-- Typed parameters as a configuration, or the name of the constraint they break. -/
def Config.ofParameters (p : Parameters) : Except ConfigProblem Config :=
  match h : p.problem with
  | some e => .error e
  | none => .ok ⟨p, h⟩

/-- Configuration time: an offered configuration is taken where it meets every constraint of R9 and refused by name
where it breaks one (20_memory.md R26, 60_exceptions.md R70, 95 section 2 NEG1 to NEG5). -/
def configure (r : RawConfig) : Except ConfigProblem Config :=
  match r.typed with
  | .error e => .error e
  | .ok p => Config.ofParameters p

end Sys2Proof
end

