-- ==== Sys2Proof/Machine/State.lean ====
section
/-! DEFINITION. The state of SEQ (10_state.md R19), the reasons a step can stop, and the state after reset
(70_reset_and_hazards.md R82). -/

namespace Sys2Proof.Machine

/-- Where SEQ is inside a move (10_state.md R15).  Three values: the fourth code of a 2-bit register is unreachable
and has no meaning (93 U11). -/
inductive Phase where
  /-- No move in flight. -/
  | idle
  /-- The next micro-step is a `SetPin`. -/
  | write
  /-- The eight writes of iteration `idx` are done and the delay is running. -/
  | delay
deriving DecidableEq, Repr

/-- The input ports as sampled at one rising edge of `clk` (42_interfaces.md R65). -/
structure Inputs where
  /-- `rst`, active high (70_reset_and_hazards.md R82). -/
  rst : Bool
  /-- `cmd_valid`: the environment offers a command at this edge. -/
  cmdValid : Bool
  /-- `cmd[1:0]`, sampled only when `cmd_valid = 1` and `cmd_ready = 1`. -/
  cmd : Cmd2
deriving DecidableEq, Repr

/-- An edge at which the environment neither resets nor offers a command. -/
def Inputs.quiet : Inputs := ⟨false, false, 0#2⟩

/-- The state of SEQ: every row of Table R19 (10_state.md), `busy` apart, which is derived (R17), and the input ports
of the coming edges. -/
structure State where
  /-- The constants `FWD`, `BWD`, `M1_PINS`, `M2_PINS`, `STEP_DELAY`, `F_CLK`, `PIN_RESET` (R10, R11, R19).  No operation
  writes them and no reset changes them (R40). -/
  config : Config
  /-- The port values of the coming clock edges, the next edge's first; beyond the list the environment is quiet.  The
  model's own field, not the spec's (log 2). -/
  inputs : List Inputs
  /-- `f1` = `motor1Reversed` of the move in flight (R13). -/
  f1 : Bool
  /-- `f2` = `motor2Reversed` of the move in flight (R13). -/
  f2 : Bool
  /-- The row index, 0..7 (R14). -/
  idx : Fin 8
  /-- Idle, write or delay (R15). -/
  phase : Phase
  /-- The position of the next write inside the iteration, 0..7 (R15). -/
  sub : Fin 8
  /-- The step delay timer, a down-counter of clock cycles (R15, 60_exceptions.md R76; log 6). -/
  timer : Nat
  /-- The output latch `PIN[0..7]`, by logical pin (R16). -/
  pins : Pins
  /-- `TRACE`, the events of the run, oldest first (R18). -/
  trace : List Event
deriving DecidableEq, Repr

/-- The reasons SEQ can fault: none.  "The core itself never fails" (60_exceptions.md R70); nobody raises one.  Safe: a
type without members lets no run stop (log 16). -/
inductive Fault where
deriving DecidableEq, Repr

/-- The reasons an instruction can have no meaning. -/
inductive Refusal where
  /-- An instruction without a meaning in this model, by its mnemonic.  Raised by no arm of `exec`: all four commands
  have their meaning.  Safe. -/
  | notModelled (mnemonic : String)
deriving DecidableEq, Repr

/-- The reset state of a configuration (70_reset_and_hazards.md R82): IDLE, every register 0, the pins at
`PIN_RESET`; the initial state of a model has an empty `TRACE`.  The environment has nothing scheduled (log 2). -/
def State.resetOf (c : Config) : State where
  config := c
  inputs := []
  f1 := false
  f2 := false
  idx := 0
  phase := .idle
  sub := 0
  timer := 0
  pins := c.params.pinReset
  trace := []

/-- The machine right after reset, with the free configuration (70_reset_and_hazards.md R82; log 3). -/
def State.reset : State := State.resetOf Config.board

end Sys2Proof.Machine
end

