-- ==== Sys2Proof/Machine/Flags.lean ====
section
/-! DEFINITION. The one status flag of SEQ and the handshake output derived from it (10_state.md R17,
42_interfaces.md R65, R66). There are no condition codes (R17). -/

namespace Sys2Proof.Machine

/-- `busy = 1` exactly when `phase` is not `IDLE` (10_state.md R17). -/
def busy (s : State) : Bool := decide (s.phase ≠ .idle)

/-- `cmd_ready = 1` exactly when `phase = IDLE` (42_interfaces.md R65, R66). -/
def cmdReady (s : State) : Bool := decide (s.phase = .idle)

end Sys2Proof.Machine
end

