-- ==== Sys2Proof/Decode.lean ====
section
/-! DEFINITION. The three encodings of `30_encoding.md`: the command word `CMD2` (R28, R31), the PhaseStep word
`ROW4` (R29) and the pin-write word `SETPIN` (R30), each with its encoder; and the textual spellings of R36. Decoding
a command is total: there is no reserved or illegal encoding (R34), one length and one format (R35). -/

namespace Sys2Proof

/-- `motor1Reversed`, the source's flag1, of each command (41_move.md R46). -/
def flag1 : Instr → Bool
  | .down => false
  | .up => false
  | .left => true
  | .right => true

/-- `motor2Reversed`, the source's flag2, of each command (41_move.md R46). -/
def flag2 : Instr → Bool
  | .down => false
  | .up => true
  | .left => false
  | .right => true

/-- The command with the given pair of flags: the "semantic" column of Table R46. -/
def ofFlags : Bool → Bool → Instr
  | true, true => .right
  | true, false => .left
  | false, true => .up
  | false, false => .down

/-- The command of a `CMD2` word: bit 1 is `f1`, bit 0 is `f2` (30_encoding.md R28, R31). -/
def decode (w : Cmd2) : Instr :=
  ofFlags (w.getLsbD 1) (w.getLsbD 0)

/-- The `CMD2` word of a command (30_encoding.md R28). -/
def encode (i : Instr) : Cmd2 :=
  BitVec.ofBool (flag1 i) ++ BitVec.ofBool (flag2 i)

/-- The command on the low two bits of a carrier: "the bits above bit 1 are not part of this block's interface and
the block does not see them" (30_encoding.md R34; log 9).  Bits from `nbits` on are 0. -/
def commandBits (nbits w : Nat) : Cmd2 :=
  BitVec.ofNat 2 (w % 2 ^ nbits)

/-- The command this decoder reads from a carrier of `nbits` bits with value `w`, bit 0 the least significant. -/
def decodeTableWord (nbits w : Nat) : Option Instr :=
  some (decode (commandBits nbits w))

/-- A PhaseStep from the source's tuple `(c0, c1, c2, c3)`: column 0 is bit 3 (30_encoding.md R29). -/
def packRow (c0 c1 c2 c3 : Bool) : Row :=
  BitVec.ofBool c0 ++ BitVec.ofBool c1 ++ BitVec.ofBool c2 ++ BitVec.ofBool c3

/-- `row.col(k) = row[3-k]` (30_encoding.md R29). -/
def rowCol (r : Row) (k : Fin 4) : Bool :=
  r.getLsbD (3 - k.val)

/-- The `SETPIN` word of a pin write: bits 3:1 are the logical pin, bit 0 the value (30_encoding.md R30). -/
def encodeSetPin (j : Fin 8) (v : Bool) : SetPinWord :=
  BitVec.ofFin j ++ BitVec.ofBool v

/-- The pin write of a `SETPIN` word; every value names one of the eight pins (30_encoding.md R30, R34). -/
def decodeSetPin (w : SetPinWord) : Fin 8 × Bool :=
  ((w.extractLsb' 1 3).toFin, w.getLsbD 0)

/-- The command each logical button of the input decoder maps to, 1:1 (42_interfaces.md R64). -/
def buttonCommand : Button → Instr
  | .left => .left
  | .down => .down
  | .right => .right
  | .up => .up

/-- The spellings of the commands: the four mnemonics, the source's call form with each argument `true` or `false`,
and this spec's call form with 1 for true (30_encoding.md R36). -/
def spellings : List (String × Instr) :=
  [("RIGHT", .right), ("LEFT", .left), ("UP", .up), ("DOWN", .down),
   ("move(true, true)", .right), ("move(true, false)", .left),
   ("move(false, true)", .up), ("move(false, false)", .down),
   ("move(1,1)", .right), ("move(1,0)", .left), ("move(0,1)", .up), ("move(0,0)", .down)]

/-- A line without its comment: `#` runs to the end of the line (30_encoding.md R36). -/
def dropComment (line : List Char) : List Char :=
  line.takeWhile (· != '#')

/-- A line without the spaces at its two ends (log 18). -/
def trimSpaces (line : List Char) : List Char :=
  ((line.dropWhile (· == ' ')).reverse.dropWhile (· == ' ')).reverse

/-- The command spelled by a trimmed line, or none where no spelling of R36 matches. -/
def spelledCommand (line : List Char) : Option Instr :=
  (spellings.find? fun p => p.1.toList == line).map (·.2)

/-- A program, one command per line in order; a line that holds only a comment or nothing holds no command; none
where some line is no spelling of R36 (30_encoding.md R36). -/
def parseProgram : List String → Option (List Instr)
  | [] => some []
  | line :: rest =>
    let text := trimSpaces (dropComment line.toList)
    if text.isEmpty then parseProgram rest
    else
      match spelledCommand text, parseProgram rest with
      | some i, some is => some (i :: is)
      | _, _ => none

end Sys2Proof
end

