-- ==== Sys2Proof/Machine/Operands.lean ====
section
/-! DEFINITION. What a micro-step reads: the table selectors (30_encoding.md R32, 41_move.md R46), the table read
`Row(T, i)` (40_step_table.md R42), the assembly of a pin write from the write position (30_encoding.md R33), the
names of the pins (00_scope.md section 6), and the length of the delay in clock cycles (60_exceptions.md R76). -/

namespace Sys2Proof.Machine

/-- Motor 1's table: `BWD` exactly when `f1 = 1` (41_move.md R46, 30_encoding.md R32). -/
def sel1 (f1 : Bool) : TableSel := if f1 then .bwd else .fwd

/-- Motor 2's table: `FWD` exactly when `f2 = 1`, the opposite sense of motor 1's (41_move.md R46,
30_encoding.md R32). -/
def sel2 (f2 : Bool) : TableSel := if f2 then .fwd else .bwd

/-- The table each motor consumes under a pair of flags (41_move.md R46). -/
def selFor (f1 f2 : Bool) (m : Motor) : TableSel :=
  match m with
  | .one => sel1 f1
  | .two => sel2 f2

/-- The contents of a table (20_memory.md R20). -/
def tableOf (c : Config) (t : TableSel) : Table :=
  match t with
  | .fwd => c.params.fwd
  | .bwd => c.params.bwd

/-- `Row(T, i)`: the PhaseStep at row `i` of table `T`; it writes nothing and always succeeds (40_step_table.md R42,
20_memory.md R21). -/
def tableRow (c : Config) (t : TableSel) (i : Fin 8) : Row := (tableOf c t)[i]

/-- The motor of a write position: 1 below 4, else 2 (30_encoding.md R33). -/
def motorOf (sub : Fin 8) : Motor := if sub.val < 4 then .one else .two

/-- The column of a write position, `sub mod 4` (30_encoding.md R33). -/
def colOf (sub : Fin 8) : Fin 4 := ⟨sub.val % 4, Nat.mod_lt _ (by decide)⟩

/-- The logical pin `L(m,k) = 4*(m-1) + k` (00_scope.md section 6). -/
def logicalPin (m : Motor) (k : Fin 4) : Fin 8 :=
  match m with
  | .one => ⟨k.val, by omega⟩
  | .two => ⟨4 + k.val, by omega⟩

/-- `Pin(m, k)`, the physical identifier that column `k` of motor `m` drives: position `k` of the motor's pin set
(00_scope.md section 6; 10_state.md R11). -/
def pinOf (c : Config) (m : Motor) (k : Fin 4) : PinId :=
  match m with
  | .one => c.params.m1Pins[k]
  | .two => c.params.m2Pins[k]

/-- The logical pin that a physical identifier names, if it is one of the eight configured (20_memory.md R26). -/
def logicalOf (c : Config) (p : PinId) : Option (Fin 8) :=
  (List.finRange 8).find? fun j => pinOf c (motorOf j) (colOf j) == p

/-- The value written at position `sub` of iteration `idx`: `Row(T, idx).col(k)` (30_encoding.md R33). -/
def writeValue (c : Config) (f1 f2 : Bool) (idx sub : Fin 8) : Bool :=
  rowCol (tableRow c (selFor f1 f2 (motorOf sub)) idx) (colOf sub)

/-- `DELAY_CYCLES = ceil(STEP_DELAY * F_CLK)`, "done once, at configuration" (70_reset_and_hazards.md R91,
60_exceptions.md R76). -/
def delayCycles (c : Config) : Nat :=
  let n := c.params.stepDelay.num * c.params.fClk.num
  let d := c.params.stepDelay.den * c.params.fClk.den
  (n + d - 1) / d

/-- A number of clock cycles as a duration in microseconds: `n / F_CLK` (70_reset_and_hazards.md R91). -/
def cyclesTime (c : Config) (n : Nat) : Quantity :=
  ⟨n * c.params.fClk.den, c.params.fClk.num⟩

end Sys2Proof.Machine
end

