-- ==== Sys2Proof/Machine/Ops.lean ====
section
/-! DEFINITION. The named operations over the registers and the pins: sampling the ports, the pin output primitive
(42_interfaces.md R63), reset (70_reset_and_hazards.md R82), and the micro-steps ACCEPT, WRITE and DELAY-END
(41_move.md R53 to R55) with the timer of 60_exceptions.md R76. There is no exception to take and no trap to return
from (60_exceptions.md R70, R73, R74): reset is the one event that diverts a move, and it saves nothing. -/

namespace Sys2Proof.Machine

/-- The port values at the coming clock edge (42_interfaces.md R65; log 2). -/
def sample (s : State) : Inputs := s.inputs.head?.getD Inputs.quiet

/-- The state with the coming edge's port values taken off the schedule. -/
def consume (s : State) : State := { s with inputs := s.inputs.tail }

/-- The command offered at an edge, if one is (42_interfaces.md R66). -/
def offered (e : Inputs) : Option Instr :=
  if e.cmdValid then some (decode e.cmd) else none

/-- The command SEQ works on at the coming edge: the one in flight while busy, whatever is offered (42_interfaces.md
R66), else the one offered, else none (41_move.md R52). -/
def current (s : State) : Option Instr :=
  if busy s then some (ofFlags s.f1 s.f2) else offered (sample s)

/-- `SetPin(p, v)`: the output that `p` names takes level `v`, and the write is recorded, also where the level does
not change (42_interfaces.md R63, 20_memory.md R25).  An identifier outside the eight reaches no output
(20_memory.md R22); SEQ never uses one (log 20). -/
def setPin (p : PinId) (v : Bool) (s : State) : State :=
  match logicalOf s.config p with
  | some j => { s with pins := s.pins.set j v, trace := s.trace ++ [.setPin j v] }
  | none => s

/-- `Apply(m, row)`: the four writes of one PhaseStep, columns 0 to 3 in order (41_move.md R56). -/
def applyRow (m : Motor) (row : Row) (s : State) : State :=
  (List.finRange 4).foldl (fun t k => setPin (pinOf t.config m k) (rowCol row k) t) s

/-- Reset at an edge with `rst = 1`: the reset state, whatever the state; the constants are not affected, the pins take
`PIN_RESET` without a write event, and `TRACE` gains `RESET` (70_reset_and_hazards.md R82, R83). -/
def applyReset (s : State) : State :=
  { State.resetOf s.config with inputs := s.inputs, trace := s.trace ++ [.reset] }

/-- ACCEPT of the command with flags `f1`, `f2` (41_move.md R53).  No pin is written. -/
def accept (f1 f2 : Bool) (s : State) : State :=
  { s with
    f1 := f1, f2 := f2, idx := 0, sub := 0, phase := .write
    trace := s.trace ++ [.accept f1 f2] }

/-- WRITE: one pin write assembled from `sub` (30_encoding.md R33); after the eighth the delay starts, the timer
loaded with `DELAY_CYCLES` (41_move.md R54, 60_exceptions.md R76). -/
def writePin (s : State) : State :=
  let m := motorOf s.sub
  let k := colOf s.sub
  let row := tableRow s.config (selFor s.f1 s.f2 m) s.idx
  let t := setPin (pinOf s.config m k) (rowCol row k) s
  if s.sub = 7 then { t with phase := .delay, timer := delayCycles s.config }
  else { t with sub := s.sub + 1 }

/-- DELAY-END: the delay is served; after iteration 7 the move ends, else the next iteration begins (41_move.md R55).
No pin is written. -/
def delayEnd (s : State) : State :=
  if s.idx = 7 then { s with phase := .idle, trace := s.trace ++ [.delay, .done] }
  else { s with idx := s.idx + 1, sub := 0, phase := .write, trace := s.trace ++ [.delay] }

/-- A clock edge at which the delay is still running: only the down-counter moves (60_exceptions.md R76). -/
def delayTick (s : State) : State := { s with timer := s.timer - 1 }

/-- One clock edge of `move(f1, f2)`: in `IDLE` the command is accepted; while a move is in flight its one enabled
micro-step happens, or its delay runs on, and the command is neither accepted nor does it change anything (41_move.md
R52, 42_interfaces.md R66; log 7). -/
def moveEdge (f1 f2 : Bool) (s : State) : State :=
  match s.phase with
  | .idle => accept f1 f2 s
  | .write => writePin s
  | .delay => if s.timer = 0 then delayEnd s else delayTick s

/-- The port values that offer the command on the low two bits of a carrier, without reset. -/
def offerInputs (nbits w : Nat) : Inputs := ⟨false, true, commandBits nbits w⟩

end Sys2Proof.Machine
end

