-- ==== Sys2Proof/Machine/Move.lean ====
section
/-! DEFINITION. The meanings of the four commands (41_move.md R48 to R51): each is one clock edge of its `move`, whose
whole run, edge by edge, is the operation of R47 (R62). -/

namespace Sys2Proof.Machine

/-- DOWN = `move(false, false)`: motor 1 consumes `FWD`, motor 2 consumes `BWD` (41_move.md R51). -/
def execDown (s : State) : Host.Outcome State Fault Refusal :=
  .next (moveEdge false false s)

/-- UP = `move(false, true)`: both motors consume `FWD` (41_move.md R50). -/
def execUp (s : State) : Host.Outcome State Fault Refusal :=
  .next (moveEdge false true s)

/-- LEFT = `move(true, false)`: both motors consume `BWD` (41_move.md R49). -/
def execLeft (s : State) : Host.Outcome State Fault Refusal :=
  .next (moveEdge true false s)

/-- RIGHT = `move(true, true)`: motor 1 consumes `BWD`, motor 2 consumes `FWD` (41_move.md R48). -/
def execRight (s : State) : Host.Outcome State Fault Refusal :=
  .next (moveEdge true true s)

end Sys2Proof.Machine
end

