-- ==== Sys2Proof/Machine/Dispatch.lean ====
section
/-! DEFINITION. One arm per command, each one direct call of its meaning. -/

namespace Sys2Proof.Machine

def exec (i : Instr) (s : State) : Host.Outcome State Fault Refusal :=
  match i with
  | .down => Sys2Proof.Machine.execDown s
  | .up => Sys2Proof.Machine.execUp s
  | .left => Sys2Proof.Machine.execLeft s
  | .right => Sys2Proof.Machine.execRight s

end Sys2Proof.Machine
end

