-- ==== Sys2Proof/Machine/Step.lean ====
section
/-! DEFINITION. One step of the machine: one rising edge of `clk` in the signal-level binding (42_interfaces.md R65,
60_exceptions.md R72; log 1). -/

namespace Sys2Proof.Machine

/-- One rising edge of `clk`: reset over everything; else the micro-step the phase enables; a command is accepted only
where `phase` is `IDLE` at the edge; an idle edge without an offer changes nothing (60_exceptions.md R72, 41_move.md
R52). -/
def step (s : State) : Host.Outcome State Fault Refusal :=
  if (sample s).rst then .next (applyReset (consume s))
  else
    match current s with
    | some i => exec i (consume s)
    | none => .next (consume s)

/-- The state in which the coming edge samples an offer of the command on the low two bits of `w`, no reset, and no move
is in flight, so that `step` accepts and runs exactly it (42_interfaces.md R66; log 8). -/
def State.withFetchWord (s : State) (nbits w : Nat) : State :=
  { s with phase := .idle, inputs := offerInputs nbits w :: s.inputs.tail }

end Sys2Proof.Machine
end

