-- ==== Sys2Proof/Machine/Abstract.lean ====
section
/-! DEFINITION. SEQ without a clock: the micro-step machine of 41_move.md R52 to R55 as the spec's own pseudocode gives
it, where the environment decides when a command is offered and how much time passes, and reset, which may come between
any two micro-steps (60_exceptions.md R72, 70_reset_and_hazards.md R82). The clocked `step` is one way to
run it (42_interfaces.md section 2); here a delay may last any time of at least `STEP_DELAY` (R58). -/

namespace Sys2Proof.Machine

/-- One micro-step, or none where none is enabled: `offer` is the command the environment offers, `elapsed` the time
since `phase` became `DELAY` (41_move.md R52 to R55; log 19). -/
def microStep (offer : Option Instr) (elapsed : Quantity) (s : State) : Option State :=
  match s.phase with
  | .idle => offer.map fun i => accept (flag1 i) (flag2 i) s
  | .write => some (writePin s)
  | .delay => if s.config.params.stepDelay.le elapsed then some (delayEnd s) else none

/-- A run of micro-steps, one for each offer and elapsed time the environment gives; none where one of them is not
enabled (41_move.md R62). -/
def microRun : List (Option Instr × Quantity) → State → Option State
  | [], s => some s
  | (offer, elapsed) :: rest, s =>
    match microStep offer elapsed s with
    | some t => microRun rest t
    | none => none

/-- What can happen at the abstract level: a reset, or the micro-step the phase enables (41_move.md R52, 60_exceptions.md
R72). -/
inductive AbstractAction where
  /-- The environment applies a reset. -/
  | reset
  /-- The environment offers a command, or none, and the given time has passed since `phase` became `DELAY`. -/
  | micro (offer : Option Instr) (elapsed : Quantity)
deriving DecidableEq, Repr

/-- One step at the abstract level: reset is "a step that is enabled in every state" (70_reset_and_hazards.md R82);
otherwise the enabled micro-step, or none where none is enabled (60_exceptions.md R72). -/
def abstractStep (a : AbstractAction) (s : State) : Option State :=
  match a with
  | .reset => some (applyReset s)
  | .micro offer elapsed => microStep offer elapsed s

/-- A run at the abstract level, resets anywhere among the micro-steps (60_exceptions.md R72). -/
def abstractRun : List AbstractAction → State → Option State
  | [], s => some s
  | a :: rest, s =>
    match abstractStep a s with
    | some t => abstractRun rest t
    | none => none

/-- What the abstract machine sees of a state: everything but the port schedule and the down-counter, which belong to
the signal-level binding (42_interfaces.md section 2, 60_exceptions.md R76). -/
def abstractView (s : State) : State := { s with inputs := [], timer := 0 }

end Sys2Proof.Machine
end

