-- ==== Sys2Proof/Machine/Macro.lean ====
section
/-! DEFINITION. The operation `move` as a whole (41_move.md R47): the macro semantics, which the micro-steps are to
agree with (R62); the event sequence of one move; the patterns held at the delay points (R60); and the number of
clock edges a move takes (70_reset_and_hazards.md R91). -/

namespace Sys2Proof.Machine

/-- The pin state `(a,b,c,d | e,f,g,h)` that shows one PhaseStep on each motor (00_scope.md section 6). -/
def pairPattern (r1 r2 : Row) : Pins :=
  #v[rowCol r1 0, rowCol r1 1, rowCol r1 2, rowCol r1 3, rowCol r2 0, rowCol r2 1, rowCol r2 2, rowCol r2 3]

/-- The events of one iteration with rows `r1` and `r2`: eight writes to logical pins 0 to 7 in order, then the delay
(41_move.md R47, R57). -/
def rowEvents (r1 r2 : Row) : List Event :=
  [.setPin 0 (rowCol r1 0), .setPin 1 (rowCol r1 1), .setPin 2 (rowCol r1 2), .setPin 3 (rowCol r1 3),
   .setPin 4 (rowCol r2 0), .setPin 5 (rowCol r2 1), .setPin 6 (rowCol r2 2), .setPin 7 (rowCol r2 3),
   .delay]

/-- The 64 writes and 8 delays of a move that walks table `t1` for motor 1 and `t2` for motor 2 (41_move.md R47). -/
def tableEvents (c : Config) (t1 t2 : TableSel) : List Event :=
  (List.finRange 8).flatMap fun i => rowEvents (tableRow c t1 i) (tableRow c t2 i)

/-- The 64 writes and 8 delays of `move(f1, f2)`, in order (41_move.md R46, R47). -/
def moveEvents (c : Config) (f1 f2 : Bool) : List Event := tableEvents c (sel1 f1) (sel2 f2)

/-- What the pins hold at delay point `i`: `(T1[i] | T2[i])` (41_move.md R60). -/
def heldPattern (c : Config) (f1 f2 : Bool) (i : Fin 8) : Pins :=
  pairPattern (tableRow c (sel1 f1) i) (tableRow c (sel2 f2) i)

/-- The four pins of a motor, as the PhaseStep they show (00_scope.md section 6). -/
def motorPins (m : Motor) (p : Pins) : Row :=
  packRow p[logicalPin m 0] p[logicalPin m 1] p[logicalPin m 2] p[logicalPin m 3]

/-- One pass of the loop of R47: both applications, the delay, and the next index below 7. -/
def moveIteration (f1 f2 : Bool) (s : State) : State :=
  let a := applyRow .one (tableRow s.config (sel1 f1) s.idx) s
  let b := applyRow .two (tableRow a.config (sel2 f2) a.idx) a
  let d := { b with trace := b.trace ++ [.delay] }
  if d.idx = 7 then d else { d with idx := d.idx + 1 }

/-- The loop of R47, a number of passes. -/
def moveLoop (f1 f2 : Bool) : Nat → State → State
  | 0, s => s
  | n + 1, s => moveLoop f1 f2 n (moveIteration f1 f2 s)

/-- The macro semantics of `move(f1, f2)`: latch the flags, start at row 0, eight passes, never fewer, never more
(41_move.md R47), in the end state of R62 (log 17). -/
def move (f1 f2 : Bool) (s : State) : State :=
  let b := { s with f1 := f1, f2 := f2, idx := 0, trace := s.trace ++ [.accept f1 f2] }
  let e := moveLoop f1 f2 8 b
  { e with phase := .idle, sub := 7, timer := 0, trace := e.trace ++ [.done] }

/-- The clock edges of a move, the accepting edge and the edge at which `busy` falls included:
`1 + 64 + 8 * (DELAY_CYCLES + 1)` (70_reset_and_hazards.md R91). -/
def moveEdges (c : Config) : Nat := 1 + 64 + 8 * (delayCycles c + 1)

/-- A number of pin writes in the order a list gives, each with the value of its logical pin in iteration `i`; for
statements about any order of the eight writes (41_move.md R57, R60). -/
def writeInOrder (c : Config) (f1 f2 : Bool) (i : Fin 8) (order : List (Fin 8)) (p : Pins) : Pins :=
  order.foldl (fun (q : Pins) (j : Fin 8) => q.set j (writeValue c f1 f2 i j)) p

end Sys2Proof.Machine
end

