-- ==== Sys2Proof/Machine/Ports.lean ====
section
/-! DEFINITION. The output ports of SEQ in the cycle that ends at the coming clock edge (42_interfaces.md R65, R67, R68). -/

namespace Sys2Proof.Machine

/-- The output port values (42_interfaces.md Table R65). -/
structure Outputs where
  /-- `cmd_ready`. -/
  cmdReady : Bool
  /-- `busy`. -/
  busy : Bool
  /-- `pin[7:0]`: bit `j` is logical pin `j`. -/
  pin : BitVec 8
  /-- The write monitor: none where `pin_we = 0`, in which case the spec gives `pin_id` and `pin_val` no value
  (log 15); else `pin_id` and `pin_val` as a `SETPIN` word (30_encoding.md R30). -/
  write : Option SetPinWord
deriving DecidableEq, Repr

/-- `pin[7:0]`, bit `j` showing `PIN[j]` (42_interfaces.md R65, R68). -/
def pinPort (p : Pins) : BitVec 8 :=
  BitVec.ofBool p[7] ++ BitVec.ofBool p[6] ++ BitVec.ofBool p[5] ++ BitVec.ofBool p[4]
    ++ BitVec.ofBool p[3] ++ BitVec.ofBool p[2] ++ BitVec.ofBool p[1] ++ BitVec.ofBool p[0]

/-- `pin_we = 1`: a WRITE micro-step happens at the coming edge, which a reset at that edge rules out
(42_interfaces.md R68, 60_exceptions.md R72; log 15). -/
def pinWe (s : State) : Bool :=
  decide (s.phase = .write) && !(sample s).rst

/-- The output ports at the coming edge. -/
def outputs (s : State) : Outputs where
  cmdReady := cmdReady s
  busy := busy s
  pin := pinPort s.pins
  write :=
    if pinWe s then some (encodeSetPin s.sub (writeValue s.config s.f1 s.f2 s.idx s.sub))
    else none

end Sys2Proof.Machine
end

