-- ==== Sys2Proof/Safety.lean ====
section
/-! DEFINITION. Runs of SEQ, what counts as a good state and a good trace, and the premises on its environment, in the
terms statements use. -/

namespace Sys2Proof.Safety

open Sys2Proof.Machine

/-- `n` clock edges of the machine. -/
def edges (n : Nat) (s : State) : Host.Outcome State Fault Refusal := Sys2Proof.core.run n s

/-- `n` clock edges of one command by itself: its meaning, edge after edge, no reset among them. -/
def execMany (i : Instr) : Nat → State → Host.Outcome State Fault Refusal
  | 0, s => .next s
  | n + 1, s =>
    match exec i s with
    | .next t => execMany i n t
    | .fault r => .fault r
    | .refused r => .refused r

/-- The control registers agree with the phase: while writing or idle the timer has run out; while the delay runs, all
eight writes are done and the down-counter is at most `DELAY_CYCLES` (10_state.md R15, 60_exceptions.md R76). -/
abbrev controlOk (s : State) : Prop :=
  (s.phase ≠ .delay → s.timer = 0) ∧
    (s.phase = .delay → s.sub = 7 ∧ s.timer ≤ delayCycles s.config)

/-- The pins agree with the place inside the move: between the writes of an iteration, the pins already written show the
new row and, from iteration 1 on, the others the row before (70_reset_and_hazards.md R89); at a delay point they hold
the pattern of the iteration (41_move.md R60). -/
abbrev pinsOk (s : State) : Prop :=
  (s.phase = .write → ∀ j : Fin 8,
      (j < s.sub → s.pins[j] = writeValue s.config s.f1 s.f2 s.idx j) ∧
        (s.sub ≤ j → s.idx ≠ 0 → s.pins[j] = writeValue s.config s.f1 s.f2 (s.idx - 1) j)) ∧
    (s.phase = .delay → s.pins = heldPattern s.config s.f1 s.f2 s.idx)

/-- An idle machine is in the reset state or at the end of a move: after a move the pins stay at row 7 of each motor's
table (41_move.md R62, 70_reset_and_hazards.md R82, R88). -/
abbrev idleOk (s : State) : Prop :=
  s.phase = .idle →
    (s.idx = 0 ∧ s.sub = 0 ∧ s.f1 = false ∧ s.f2 = false ∧ s.pins = s.config.params.pinReset) ∨
      (s.idx = 7 ∧ s.sub = 7 ∧ s.pins = heldPattern s.config s.f1 s.f2 7)

/-- How far a trace has come: between moves, or inside a move with a number of its events done. -/
inductive Progress where
  | idle
  | moving (f1 f2 : Bool) (n : Nat)
deriving DecidableEq, Repr

/-- The next event of a legal trace: a move's events come whole and in order, `DONE` right after the last of them,
`ACCEPT` only between moves, and only `RESET` cuts a move short (20_memory.md R27, 41_move.md R61, R62,
70_reset_and_hazards.md R83, 95 section 7). -/
def progressStep (c : Config) (p : Progress) (e : Event) : Option Progress :=
  if e = .reset then some .idle
  else
    match p with
    | .idle =>
      match e with
      | .accept f1 f2 => some (.moving f1 f2 0)
      | _ => none
    | .moving f1 f2 n =>
      if n < 72 then
        if (moveEvents c f1 f2)[n]? = some e then some (.moving f1 f2 (n + 1)) else none
      else if e = .done then some .idle
      else none

/-- How far a list of events has come from a given place, or none where it is no legal trace. -/
def progressFrom (c : Config) : Progress → List Event → Option Progress
  | p, [] => some p
  | p, e :: es =>
    match progressStep c p e with
    | some q => progressFrom c q es
    | none => none

/-- The place in its trace that a machine's registers say: in iteration `idx`, `9 * idx` events of the move are done
before it and `sub` of its writes, or all eight (41_move.md R47). -/
def progressOf (s : State) : Progress :=
  match s.phase with
  | .idle => .idle
  | .write => .moving s.f1 s.f2 (9 * s.idx.val + s.sub.val)
  | .delay => .moving s.f1 s.f2 (9 * s.idx.val + 8)

/-- The trace is legal and has come exactly as far as the registers say (20_memory.md R27, 41_move.md R62). -/
abbrev traceOk (s : State) : Prop :=
  progressFrom s.config .idle s.trace = some (progressOf s)

/-- A pin write, to any pin. -/
def isWrite : Event → Bool
  | .setPin _ _ => true
  | .accept _ _ | .delay | .done | .reset => false

/-- A write to logical pin `j`. -/
def isWriteTo (j : Fin 8) : Event → Bool
  | .setPin k _ => k == j
  | .accept _ _ | .delay | .done | .reset => false

/-- An accepted command. -/
def isAccept : Event → Bool
  | .accept _ _ => true
  | .setPin _ _ | .delay | .done | .reset => false

/-- The invariant of the clocked machine. -/
abbrev Inv (s : State) : Prop := controlOk s ∧ pinsOk s ∧ idleOk s ∧ traceOk s

/-- The invariant without the clock: nothing of the down-counter. -/
abbrev AbstractInv (s : State) : Prop :=
  (s.phase = .delay → s.sub = 7) ∧ pinsOk s ∧ idleOk s ∧ traceOk s

/-- The environment applies no reset at the coming `n` edges: the premise under which the block has exactly the
source's behaviour (70_reset_and_hazards.md R83). -/
abbrev noReset (n : Nat) (s : State) : Prop := ∀ e ∈ s.inputs.take n, e.rst = false

/-- The environment is quiet at the coming `n` edges: no reset, no offer. -/
abbrev quietFor (n : Nat) (s : State) : Prop :=
  ∀ e ∈ s.inputs.take n, e.rst = false ∧ e.cmdValid = false

/-- The environment offers the command word `w`, held stable, at each of the coming `n` edges, without a reset: the
host's duty of 42_interfaces.md section 4. -/
abbrev offersHeld (w : Cmd2) (n : Nat) (s : State) : Prop :=
  ∀ k < n, s.inputs[k]? = some ⟨false, true, w⟩

/-- A command by itself, from any idle state: it is accepted at once; it is busy from then until its last edge; at delay
point `i` the pins hold row `i` of table `t1` on motor 1 and of table `t2` on motor 2; after `moveEdges` edges it
has ended in the state of 41_move.md R62, everything else unchanged. -/
def commandRuns (i : Instr) (f1 f2 : Bool) (t1 t2 : TableSel) : Prop :=
  ∀ s : State, s.phase = .idle →
    exec i s =
        .next { s with
          f1 := f1, f2 := f2, idx := 0, sub := 0, phase := .write
          trace := s.trace ++ [.accept f1 f2] } ∧
      (∀ n, 1 ≤ n → n < moveEdges s.config → ∃ t, execMany i n s = .next t ∧ busy t = true) ∧
      (∀ k : Fin 8, ∃ t,
        execMany i (9 + k.val * (8 + (delayCycles s.config + 1))) s = .next t ∧
          t.phase = .delay ∧ t.idx = k ∧
          t.pins = pairPattern (tableRow s.config t1 k) (tableRow s.config t2 k)) ∧
      execMany i (moveEdges s.config) s =
        .next { s with
          f1 := f1, f2 := f2, idx := 7, sub := 7, phase := .idle, timer := 0
          pins := pairPattern (tableRow s.config t1 7) (tableRow s.config t2 7)
          trace := s.trace ++ [.accept f1 f2] ++ tableEvents s.config t1 t2 ++ [.done] }

end Sys2Proof.Safety
end

