-- ==== Sys2Proof/Certificates/Slice0/Obligations.lean ====
section
/-! DEFINITION. The statements about SEQ for the provers, from the numbered rules of spec/. A statement about a step
holds for every admissible configuration: the configuration is part of the state, and its constraints are part of its
type (Config.lean). Where a statement rests on the model's own choice, its docstring names the log entry. -/

open Sys2Proof Sys2Proof.Machine Sys2Proof.Safety

/-! ### Encodings -/

/-- The four command words, written out, are the four commands with their flags and tables (30_encoding.md R31). -/
def Obligations.CommandWordsDecode : Prop :=
  (decode 0b11#2 = .right ∧ decode 0b10#2 = .left ∧ decode 0b01#2 = .up ∧ decode 0b00#2 = .down) ∧
    (∀ w : Cmd2, flag1 (decode w) = w.getLsbD 1 ∧ flag2 (decode w) = w.getLsbD 0) ∧
    (∀ i : Instr, decode (encode i) = i) ∧ ∀ w : Cmd2, encode (decode w) = w

/-- Whatever carries the command, only its low two bits are seen (30_encoding.md R34): every carrier of at least two
bits decodes, to the command of its two low bits.  The carrier is the model's (log 9). -/
def Obligations.BitsAboveOneAreNotSeen : Prop :=
  ∀ nbits w : Nat, 2 ≤ nbits →
    decodeTableWord nbits w = some (decode (BitVec.ofNat 2 w)) ∧
      ∀ high : Nat, decodeTableWord nbits (w + 4 * high) = decodeTableWord nbits w

/-- The `SETPIN` word: bits 3:1 are the logical pin and bit 0 the value; every word is one of the sixteen writes; and
the physical identifier of logical pin `j` is `Pin(m,k)` with `m = 1 + (j >> 2)` and `k = j[1:0]` (30_encoding.md
R30). -/
def Obligations.SetPinWordNamesPinAndValue : Prop :=
  (∀ (j : Fin 8) (v : Bool),
      (encodeSetPin j v).extractLsb' 1 3 = BitVec.ofFin j ∧ (encodeSetPin j v).getLsbD 0 = v ∧
        decodeSetPin (encodeSetPin j v) = (j, v)) ∧
    (∀ w : SetPinWord, encodeSetPin (decodeSetPin w).1 (decodeSetPin w).2 = w) ∧
    ∀ (c : Config) (j : Fin 8),
      (motorOf j = .one ↔ 1 + (j.val >>> 2) = 1) ∧ (motorOf j = .two ↔ 1 + (j.val >>> 2) = 2) ∧
        (colOf j).val = j.val % 4 ∧
        logicalOf c (pinOf c (motorOf j) (colOf j)) = some j

/-- The `ROW4` word of a tuple has column `k` at bit `3 - k` (30_encoding.md R29). -/
def Obligations.RowColumnsFromTheHighBit : Prop :=
  (∀ c0 c1 c2 c3 : Bool,
      rowCol (packRow c0 c1 c2 c3) 0 = c0 ∧ rowCol (packRow c0 c1 c2 c3) 1 = c1 ∧
        rowCol (packRow c0 c1 c2 c3) 2 = c2 ∧ rowCol (packRow c0 c1 c2 c3) 3 = c3) ∧
    (∀ r : Row, packRow (rowCol r 0) (rowCol r 1) (rowCol r 2) (rowCol r 3) = r) ∧
    (∀ (r : Row) (k : Fin 4), rowCol r k = r.getLsbD (3 - k.val)) ∧
    packRow true false false true = 0b1001#4

/-- A program is read as its commands in order (30_encoding.md R36): each line one of the spellings of R36, the four
mnemonics and the call with `true` and `false` or with 1 and 0, alone or followed by spaces and a comment from `#` to
the end of the line; a line that is empty or holds only a comment is no command.  And nothing else is read as a command:
a line read as one is a spelling of it, but for spaces at its ends and a comment.  How spaces and empty lines are read
is the model's choice (log 18). -/
def Obligations.ProgramTextIsReadInOrder : Prop :=
  let commands : List (String × Instr) :=
    [("RIGHT", .right), ("LEFT", .left), ("UP", .up), ("DOWN", .down),
     ("move(true, true)", .right), ("move(true, false)", .left),
     ("move(false, true)", .up), ("move(false, false)", .down),
     ("move(1,1)", .right), ("move(1,0)", .left), ("move(0,1)", .up), ("move(0,0)", .down)]
  (∀ lines : List (String × Option Instr),
    (∀ p ∈ lines,
      (∃ q ∈ commands, p.2 = some q.2 ∧
        (p.1 = q.1 ∨
          ∃ (n : Nat) (text : String), p.1 = q.1 ++ String.ofList (List.replicate n ' ') ++ "#" ++ text)) ∨
      (p.2 = none ∧
        (p.1 = "" ∨
          ∃ (n : Nat) (text : String), p.1 = String.ofList (List.replicate n ' ') ++ "#" ++ text))) →
    parseProgram (lines.map (·.1)) = some (lines.filterMap (·.2))) ∧
  ∀ (line : String) (i : Instr), parseProgram [line] = some [i] →
    ∃ q ∈ commands, q.2 = i ∧ ∃ a b : Nat,
      line.toList.takeWhile (· != '#') = List.replicate a ' ' ++ q.1.toList ++ List.replicate b ' '

/-- The four buttons of the input decoder are mapped one to one to the four commands (42_interfaces.md R64). -/
def Obligations.ButtonsMapOneToOne : Prop :=
  ∀ i : Instr, ∃ b : Button, buttonCommand b = i ∧ ∀ b' : Button, buttonCommand b' = i → b' = b

/-! ### Tables and configuration -/

/-- Which table each motor consumes (41_move.md R46): motor 1 `BWD` exactly when `f1 = 1`, motor 2 `FWD` exactly when
`f2 = 1`, for the four command words as the source's table has it; and the flags are fixed for the whole move. -/
def Obligations.FlagsSelectTables : Prop :=
  (∀ f1 f2 : Bool,
    selFor f1 f2 .one = (if f1 = true then .bwd else .fwd) ∧
      selFor f1 f2 .two = (if f2 = true then .fwd else .bwd)) ∧
    (decode 0b11#2 = .right ∧ sel1 (flag1 .right) = .bwd ∧ sel2 (flag2 .right) = .fwd) ∧
    (decode 0b10#2 = .left ∧ sel1 (flag1 .left) = .bwd ∧ sel2 (flag2 .left) = .bwd) ∧
    (decode 0b01#2 = .up ∧ sel1 (flag1 .up) = .fwd ∧ sel2 (flag2 .up) = .fwd) ∧
    (decode 0b00#2 = .down ∧ sel1 (flag1 .down) = .fwd ∧ sel2 (flag2 .down) = .bwd) ∧
    ∀ s t : State, busy s = true → (sample s).rst = false → step s = .next t →
      t.f1 = s.f1 ∧ t.f2 = s.f2

/-- Every configuration has the source's row 0 in each table and adjacent rows all the way round (40_step_table.md R38,
R39), eight distinct pin identifiers (20_memory.md R26, which the spec derives) and positive quantities (00_scope.md R9,
70_reset_and_hazards.md R84(1)), which the model holds as fractions (log 5). -/
def Obligations.ConfigurationsMeetTheirConstraints : Prop :=
  ∀ c : Config,
    tableRow c .fwd 0 = packRow true false false true ∧ tableRow c .fwd 0 = 0b1001#4 ∧
      tableRow c .bwd 0 = packRow false false false true ∧ tableRow c .bwd 0 = 0b0001#4 ∧
      (∀ (t : TableSel) (i : Fin 8), popcount (tableRow c t i ^^^ tableRow c t (i + 1)) = 1) ∧
      (∀ (m m' : Motor) (k k' : Fin 4), pinOf c m k = pinOf c m' k' → m = m' ∧ k = k') ∧
      0 < c.params.stepDelay.num ∧ 0 < c.params.stepDelay.den ∧
      0 < c.params.fClk.num ∧ 0 < c.params.fClk.den

/-- An offered configuration is accepted exactly where it meets every constraint the spec names, and no other: 8 rows
in each table, 4 identifiers in each pin set and 8 reset levels (40_step_table.md R37, 10_state.md R11, 00_scope.md
R9), row 0 of each table (R38), rows `i` and `(i+1) mod 8` different in exactly one column for every `i` (R39), eight
pairwise distinct identifiers (20_memory.md R26, which the spec derives), positive quantities (R9). Nothing more is
asked of the tables (R41, R43). What is accepted is accepted exactly as it was offered, and what one configuration
holds is accepted as that one. Fractions for quantities are log 5, the place of the refusal is log 11. -/
def Obligations.ConfigureAcceptsExactlyTheAdmissible : Prop :=
  ∀ r : RawConfig,
    ((∃ c, configure r = .ok c) ↔
      (r.fwd.length = 8 ∧ r.bwd.length = 8 ∧ r.m1Pins.length = 4 ∧ r.m2Pins.length = 4 ∧
        r.pinReset.length = 8) ∧
      (r.fwd[0]? = some 0b1001#4 ∧ r.bwd[0]? = some 0b0001#4) ∧
      (∀ T ∈ [r.fwd, r.bwd], ∀ i < 8, ∀ a b : Row, T[i]? = some a → T[(i + 1) % 8]? = some b →
        ∃ k : Fin 4, ∀ k' : Fin 4, a.getLsbD k' ≠ b.getLsbD k' ↔ k' = k) ∧
      (r.m1Pins ++ r.m2Pins).Nodup ∧
      (0 < r.stepDelay.num ∧ 0 < r.stepDelay.den) ∧ 0 < r.fClk.num ∧ 0 < r.fClk.den) ∧
    ∀ c, configure r = .ok c ↔
      r.fwd = c.params.fwd.toList ∧ r.bwd = c.params.bwd.toList ∧
        r.m1Pins = c.params.m1Pins.toList ∧ r.m2Pins = c.params.m2Pins.toList ∧
        r.stepDelay = c.params.stepDelay ∧ r.fClk = c.params.fClk ∧
        r.pinReset = c.params.pinReset.toList

/-- Parity alternates along each table, and what follows from it: what the spec itself derives from row 0 and
adjacency (40_step_table.md R38, R39; its sentence is R44). -/
def Obligations.RowParityAlternates : Prop :=
  ∀ c : Config,
    (∀ (t : TableSel) (i : Fin 8),
      popcount (tableRow c t (i + 1)) = popcount (tableRow c t i) + 1 ∨
        popcount (tableRow c t i) = popcount (tableRow c t (i + 1)) + 1) ∧
    (∀ i : Fin 8, popcount (tableRow c .fwd i) % 2 = i.val % 2 ∧
      popcount (tableRow c .bwd i) % 2 = (i.val + 1) % 2) ∧
    (∀ i : Fin 8, tableRow c .fwd i ≠ tableRow c .bwd i) ∧
    (∀ i j : Fin 8, tableRow c .fwd i = tableRow c .bwd j → (i.val + j.val) % 2 = 1) ∧
    (∀ t : TableSel, popcount (tableRow c t 7 ^^^ tableRow c t 0) = 1) ∧
    (∀ i : Fin 8, i = 7 ∨ i = 1 →
      (tableRow c .fwd i = packRow false false false true ∨
        tableRow c .fwd i = packRow true false false false ∨
        tableRow c .fwd i = packRow true true false true ∨
        tableRow c .fwd i = packRow true false true true) ∧
      (tableRow c .bwd i = packRow true false false true ∨
        tableRow c .bwd i = packRow false true false true ∨
        tableRow c .bwd i = packRow false false true true ∨
        tableRow c .bwd i = packRow false false false false))

/-- The contents of the tables never change (40_step_table.md R40): after any number of clock edges, whatever the
environment does, after any micro-step, and after any command, every row reads as before. -/
def Obligations.TablesNeverChange : Prop :=
  (∀ (n : Nat) (s t : State), edges n s = .next t →
      ∀ (T : TableSel) (i : Fin 8), tableRow t.config T i = tableRow s.config T i) ∧
    (∀ (offer : Option Instr) (e : Quantity) (s t : State), microStep offer e s = some t →
      ∀ (T : TableSel) (i : Fin 8), tableRow t.config T i = tableRow s.config T i) ∧
    ∀ (i : Instr) (s t : State), exec i s = .next t →
      ∀ (T : TableSel) (j : Fin 8), tableRow t.config T j = tableRow s.config T j

/-! ### Micro-steps -/

/-- ACCEPT (41_move.md R53): what it latches and that it writes no pin; and that a command offered while a move is in
flight is not accepted and changes nothing. -/
def Obligations.AcceptLatchesTheCommand : Prop :=
  (∀ (s : State) (c : Cmd2) (e : Quantity), s.phase = .idle →
      microStep (some (decode c)) e s =
          some { s with
            f1 := c.getLsbD 1, f2 := c.getLsbD 0, idx := 0, sub := 0, phase := .write
            trace := s.trace ++ [.accept (c.getLsbD 1) (c.getLsbD 0)] } ∧
        (sample s = ⟨false, true, c⟩ →
          step s =
            .next { s with
              inputs := s.inputs.tail
              f1 := c.getLsbD 1, f2 := c.getLsbD 0, idx := 0, sub := 0, phase := .write
              trace := s.trace ++ [.accept (c.getLsbD 1) (c.getLsbD 0)] })) ∧
    (∀ (s : State) (a b : Option Instr) (e : Quantity), s.phase ≠ .idle →
      microStep a e s = microStep b e s) ∧
    ∀ (s : State) (a b : Inputs) (rest : List Inputs), s.phase ≠ .idle → a.rst = b.rst →
      step { s with inputs := a :: rest } = step { s with inputs := b :: rest }

/-- WRITE (41_move.md R54): exactly one pin is written, with the value the flags, the row and the column give; the
identifier it goes through names exactly that pin; after the eighth write the delay starts, and with no time elapsed
it has not ended. -/
def Obligations.WriteWritesExactlyOnePin : Prop :=
  ∀ s : State, s.phase = .write → (sample s).rst = false →
    ∃ t, step s = .next t ∧
      (∀ T : TableSel,
        T = (if s.sub.val < 4 then (if s.f1 = true then .bwd else .fwd)
             else (if s.f2 = true then .fwd else .bwd)) →
          t.pins[s.sub] = rowCol (tableRow s.config T s.idx) ⟨s.sub.val % 4, by omega⟩) ∧
      (∀ j : Fin 8, j ≠ s.sub → t.pins[j] = s.pins[j]) ∧
      logicalOf s.config (pinOf s.config (motorOf s.sub) (colOf s.sub)) = some s.sub ∧
      t.trace = s.trace ++ [.setPin s.sub t.pins[s.sub]] ∧
      t.f1 = s.f1 ∧ t.f2 = s.f2 ∧ t.idx = s.idx ∧
      (s.sub = 7 → t.phase = .delay ∧ t.sub = s.sub ∧ t.timer = delayCycles s.config ∧
        ∀ offer, microStep offer ⟨0, 1⟩ t = none) ∧
      (s.sub ≠ 7 → t.phase = .write ∧ t.sub.val = s.sub.val + 1 ∧ t.timer = s.timer)

/-- DELAY-END (41_move.md R55): not before `STEP_DELAY` has elapsed; then the delay is recorded, the move ends after
iteration 7, and the next iteration begins after any other.  No pin is written.  The state of the clocked machine,
whose timer has run out, steps in the same way.  What a move leaves in `f1`, `f2`, `idx`, `sub` is not read again: the
next ACCEPT does not depend on it. -/
def Obligations.DelayEndMovesOn : Prop :=
  (∀ (s : State) (i : Instr) (e : Quantity) (g1 g2 : Bool) (j k : Fin 8), s.phase = .idle →
    microStep (some i) e { s with f1 := g1, f2 := g2, idx := j, sub := k } = microStep (some i) e s) ∧
  ∀ (s : State) (offer : Option Instr) (e : Quantity), s.phase = .delay →
    (s.config.params.stepDelay.le e = false → microStep offer e s = none) ∧
      (s.config.params.stepDelay.le e = true →
        (s.idx = 7 →
          microStep offer e s =
            some { s with phase := .idle, trace := s.trace ++ [.delay, .done] }) ∧
        (s.idx ≠ 7 → ∃ j : Fin 8, j.val = s.idx.val + 1 ∧
          microStep offer e s =
            some { s with idx := j, sub := 0, phase := .write, trace := s.trace ++ [.delay] })) ∧
      ((sample s).rst = false → s.timer = 0 → s.config.params.stepDelay.le e = true →
        ∃ t, microStep offer e { s with inputs := s.inputs.tail } = some t ∧ step s = .next t)

/-- A micro-step is enabled exactly as 41_move.md R52 says: in `IDLE` with an offer, in `WRITE`, and in `DELAY` once
`STEP_DELAY` has elapsed. -/
def Obligations.MicroStepEnabledExactly : Prop :=
  ∀ (s : State) (offer : Option Instr) (e : Quantity),
    (microStep offer e s).isSome = true ↔
      (s.phase = .idle ∧ offer.isSome = true) ∨ s.phase = .write ∨
        (s.phase = .delay ∧ s.config.params.stepDelay.le e = true)

/-- The clocked delay (60_exceptions.md R76): from the load of `DELAY_CYCLES` the phase is `DELAY` for `DELAY_CYCLES +
1` edges, the counter going down by one at each of the first `DELAY_CYCLES`; that time is at least `STEP_DELAY`.  One
step is one clock edge (log 1). -/
def Obligations.DelayLastsDelayCyclesPlusOne : Prop :=
  ∀ s : State, s.phase = .delay → s.timer = delayCycles s.config →
    noReset (delayCycles s.config + 1) s →
      (∀ n, n ≤ delayCycles s.config →
        edges n s =
          .next { s with inputs := s.inputs.drop n, timer := delayCycles s.config - n }) ∧
      edges (delayCycles s.config + 1) s =
        .next (delayEnd { s with inputs := s.inputs.drop (delayCycles s.config + 1), timer := 0 }) ∧
      s.config.params.stepDelay.le (cyclesTime s.config (delayCycles s.config + 1)) = true

/-! ### The step and the meanings -/

/-- A step runs the decoded command: in `IDLE` the one offered; while busy the one in flight, whatever is offered; and
with `withFetchWord` exactly the one of the word (42_interfaces.md R66, 41_move.md R52; logs 7, 8). -/
def Obligations.StepRunsTheDecodedCommand : Prop :=
  (∀ (s : State) (w : Cmd2), s.phase = .idle → sample s = ⟨false, true, w⟩ →
      step s = exec (decode w) { s with inputs := s.inputs.tail }) ∧
    (∀ s : State, s.phase ≠ .idle → (sample s).rst = false →
      step s = exec (ofFlags s.f1 s.f2) { s with inputs := s.inputs.tail }) ∧
    ∀ (s : State) (nbits w : Nat) (i : Instr), decodeTableWord nbits w = some i →
      step (s.withFetchWord nbits w) =
        exec i { s with phase := .idle, inputs := s.inputs.tail }

/-- `Apply(m, row)` (41_move.md R56): four writes, columns 0 to 3 in order, every one of them made, also where the
level does not change; motor `m` then shows the row, and the other motor's pins are as before. -/
def Obligations.ApplyWritesTheFourPins : Prop :=
  ∀ (m : Motor) (row : Row) (s : State), ∃ p : Pins,
    applyRow m row s =
        { s with
          pins := p
          trace := s.trace ++
            [.setPin (logicalPin m 0) (rowCol row 0), .setPin (logicalPin m 1) (rowCol row 1),
             .setPin (logicalPin m 2) (rowCol row 2), .setPin (logicalPin m 3) (rowCol row 3)] } ∧
      motorPins m p = row ∧ ∀ m' : Motor, m' ≠ m → motorPins m' p = motorPins m' s.pins

/-- DOWN runs the whole of `move(false, false)` (41_move.md R51): word `0b00`; motor 1 walks `FWD` and motor 2 `BWD`;
the two motors are alike at no delay point; the first held pattern is `(1,0,0,1 | 0,0,0,1)`. It is stated of exec run
edge by edge (log 7), with edges counted as in the signal-level binding (R91, log 1) and the end state that the spec
derives in R62. -/
def Obligations.DownRunsItsWholeMove : Prop :=
  decode 0b00#2 = .down ∧ commandRuns .down false false .fwd .bwd ∧
    (∀ (c : Config) (i : Fin 8), tableRow c .fwd i ≠ tableRow c .bwd i) ∧
    ∀ c : Config, pairPattern (tableRow c .fwd 0) (tableRow c .bwd 0) =
      #v[true, false, false, true, false, false, false, true]

/-- UP runs the whole of `move(false, true)` (41_move.md R50): word `0b01`; both motors walk `FWD`, alike at every
delay point but not between the writes of an iteration; the first held pattern is `(1,0,0,1 | 1,0,0,1)`. It is stated
of exec run edge by edge (log 7), with edges counted as in the signal-level binding (R91, log 1) and the end state
that the spec derives in R62. -/
def Obligations.UpRunsItsWholeMove : Prop :=
  decode 0b01#2 = .up ∧ commandRuns .up false true .fwd .fwd ∧
    (∀ r : Row, motorPins .one (pairPattern r r) = r ∧ motorPins .two (pairPattern r r) = r) ∧
    (∃ (s t : State) (n : Nat), s.phase = .idle ∧ n < 9 ∧ execMany .up n s = .next t ∧
      t.phase = .write ∧ motorPins .one t.pins ≠ motorPins .two t.pins) ∧
    ∀ c : Config, pairPattern (tableRow c .fwd 0) (tableRow c .fwd 0) =
      #v[true, false, false, true, true, false, false, true]

/-- LEFT runs the whole of `move(true, false)` (41_move.md R49): word `0b10`; both motors walk `BWD`, alike at every
delay point but not between the writes of an iteration; the first held pattern is `(0,0,0,1 | 0,0,0,1)`. It is stated
of exec run edge by edge (log 7), with edges counted as in the signal-level binding (R91, log 1) and the end state
that the spec derives in R62. -/
def Obligations.LeftRunsItsWholeMove : Prop :=
  decode 0b10#2 = .left ∧ commandRuns .left true false .bwd .bwd ∧
    (∀ r : Row, motorPins .one (pairPattern r r) = r ∧ motorPins .two (pairPattern r r) = r) ∧
    (∃ (s t : State) (n : Nat), s.phase = .idle ∧ n < 9 ∧ execMany .left n s = .next t ∧
      t.phase = .write ∧ motorPins .one t.pins ≠ motorPins .two t.pins) ∧
    ∀ c : Config, pairPattern (tableRow c .bwd 0) (tableRow c .bwd 0) =
      #v[false, false, false, true, false, false, false, true]

/-- RIGHT runs the whole of `move(true, true)` (41_move.md R48): word `0b11`; motor 1 walks `BWD` and motor 2 `FWD`;
the two motors are alike at no delay point; repeated, each motor goes from row 7 to row 0 of its table by one column;
the first held pattern is `(0,0,0,1 | 1,0,0,1)`. It is stated of exec run edge by edge (log 7), with edges counted as
in the signal-level binding (R91, log 1) and the end state that the spec derives in R62. -/
def Obligations.RightRunsItsWholeMove : Prop :=
  decode 0b11#2 = .right ∧ commandRuns .right true true .bwd .fwd ∧
    (∀ (c : Config) (i : Fin 8), tableRow c .bwd i ≠ tableRow c .fwd i) ∧
    (∀ c : Config, popcount (tableRow c .bwd 7 ^^^ tableRow c .bwd 0) = 1 ∧
      popcount (tableRow c .fwd 7 ^^^ tableRow c .fwd 0) = 1) ∧
    ∀ c : Config, pairPattern (tableRow c .bwd 0) (tableRow c .fwd 0) =
      #v[false, false, false, true, true, false, false, true]

/-- The frame of all four commands, over every state: the constants and the environment's schedule never change; an
accepting edge changes no pin; a writing edge changes no pin but the one that the identifier it writes through names,
and neither flag nor `idx`; a delay edge changes neither pins nor flags; the trace only grows (41_move.md R53 to R55,
10_state.md R18).  That a command is one clock edge of its move is the model's choice (logs 1, 7). -/
def Obligations.CommandFrame : Prop :=
  ∀ (i : Instr) (s t : State), exec i s = .next t →
    t.config = s.config ∧ t.inputs = s.inputs ∧ (∃ es, t.trace = s.trace ++ es) ∧
      (s.phase = .idle → t.pins = s.pins ∧ t.timer = s.timer) ∧
      (s.phase = .write →
        t.f1 = s.f1 ∧ t.f2 = s.f2 ∧ t.idx = s.idx ∧ (s.sub ≠ 7 → t.timer = s.timer) ∧
          ∀ a, logicalOf s.config (pinOf s.config (motorOf s.sub) (colOf s.sub)) = some a →
            ∀ j : Fin 8, j ≠ a → t.pins[j] = s.pins[j]) ∧
      (s.phase = .delay →
        t.pins = s.pins ∧ t.f1 = s.f1 ∧ t.f2 = s.f2 ∧
          (s.timer ≠ 0 →
            t.idx = s.idx ∧ t.sub = s.sub ∧ t.phase = s.phase ∧ t.trace = s.trace))

/-- Nothing SEQ does is a fault or a refusal: every step and every command answers a next state (60_exceptions.md
R70).  The empty type of faults is log 16. -/
def Obligations.NothingEverFails : Prop :=
  (∀ s : State, ∃ t, step s = .next t) ∧ ∀ (i : Instr) (s : State), ∃ t, exec i s = .next t

/-- Reset (70_reset_and_hazards.md R82), and the initial state: at an edge with `rst = 1`, whatever the state and
whatever is offered, the registers take their reset values, the pins `PIN_RESET` without a write event, no command is
accepted, the constants stay, and the trace gains `RESET`. -/
def Obligations.ResetFromAnyState : Prop :=
  (∀ s : State, (sample s).rst = true →
      ∃ t, step s = .next t ∧
        t.phase = .idle ∧ t.f1 = false ∧ t.f2 = false ∧ t.idx = 0 ∧ t.sub = 0 ∧ t.timer = 0 ∧
        (∀ j : Fin 8, t.pins[j] = s.config.params.pinReset[j]) ∧
        busy t = false ∧ cmdReady t = true ∧ t.config = s.config ∧
        t.trace = s.trace ++ [.reset]) ∧
    (State.reset.phase = .idle ∧ State.reset.f1 = false ∧ State.reset.f2 = false ∧
      State.reset.idx = 0 ∧ State.reset.sub = 0 ∧ State.reset.timer = 0 ∧
      (∀ j : Fin 8, State.reset.pins[j] = State.reset.config.params.pinReset[j]) ∧
      State.reset.trace = [])

/-- Coinciding events (60_exceptions.md R72): reset wins over every micro-step and every offer; a command offered at
the edge at which the eighth delay ends is not accepted there, and is accepted at the next edge if still offered. -/
def Obligations.ResetThenMicroStepThenOffer : Prop :=
  (∀ s : State, (sample s).rst = true →
      step s = .next (applyReset { s with inputs := s.inputs.tail })) ∧
    ∀ (s : State) (w w' : Cmd2) (rest : List Inputs),
      s.phase = .delay → s.timer = 0 → s.idx = 7 →
      s.inputs = ⟨false, true, w⟩ :: ⟨false, true, w'⟩ :: rest →
        ∃ t u, step s = .next t ∧ t.phase = .idle ∧ t.f1 = s.f1 ∧ t.f2 = s.f2 ∧
          t.trace = s.trace ++ [.delay, .done] ∧
          step t = .next u ∧ u.phase = .write ∧
          u.trace = t.trace ++ [.accept (w'.getLsbD 1) (w'.getLsbD 0)]

/-- Reset aborts a move (70_reset_and_hazards.md R83): the writes made stay in the trace, the pins go to `PIN_RESET`,
no `DONE` is recorded, and the move is not resumed: the next edge without an offer does nothing, and the next command
starts at row 0.  There is no other way for a move to end early: without a reset it ends only with the eighth delay.
-/
def Obligations.ResetAbortsTheMove : Prop :=
  (∀ s t : State, busy s = true → (sample s).rst = false → step s = .next t → busy t = false →
    s.phase = .delay ∧ s.idx = 7 ∧ s.timer = 0 ∧ t.trace = s.trace ++ [.delay, .done]) ∧
  ∀ (s : State) (a b : Inputs) (rest : List Inputs), busy s = true → a.rst = true → b.rst = false →
    s.inputs = a :: b :: rest →
      ∃ t u, step s = .next t ∧ step t = .next u ∧
        t.trace = s.trace ++ [.reset] ∧ t.trace.count .done = s.trace.count .done ∧
        t.pins = s.config.params.pinReset ∧ t.phase = .idle ∧ u.pins = t.pins ∧
        (b.cmdValid = false → u = { t with inputs := rest }) ∧
        (b.cmdValid = true → u.phase = .write ∧ u.idx = 0 ∧ u.sub = 0)

/-- The write monitor tells every write (42_interfaces.md R68): where it shows one, that pin takes that value and the
write is in the trace; where it shows none and there is no reset, no pin changes and no write event appears.  That the
monitor shows nothing at a reset edge is log 15. -/
def Obligations.PinsChangeOnlyWhereMonitored : Prop :=
  ∀ s t : State, step s = .next t → (sample s).rst = false →
    (∀ w, (outputs s).write = some w →
      t.pins = s.pins.set (decodeSetPin w).1 (decodeSetPin w).2 ∧
        t.trace = s.trace ++ [.setPin (decodeSetPin w).1 (decodeSetPin w).2] ∧
        (decodeSetPin w).1 = s.sub ∧ s.phase = .write) ∧
    ((outputs s).write = none →
      t.pins = s.pins ∧
        ∀ (j : Fin 8) (v : Bool), t.trace.count (.setPin j v) = s.trace.count (.setPin j v))

/-- The output ports show the state: bit `j` of `pin` is `PIN[j]`, `cmd_ready` is 1 exactly in `IDLE`, `busy` is its
negation (42_interfaces.md R65). -/
def Obligations.PortsShowTheState : Prop :=
  ∀ s : State,
    (∀ j : Fin 8, (outputs s).pin.getLsbD j.val = s.pins[j]) ∧
      ((outputs s).cmdReady = true ↔ s.phase = .idle) ∧
      (outputs s).busy = !(outputs s).cmdReady

/-! ### Whole moves -/

/-- The micro-steps of a move are the move (41_move.md R53 to R55 beside R47; the spec's own derivation is R62): an
acceptance and 72 further micro-steps, whatever is offered meanwhile and however long each delay lasts beyond
`STEP_DELAY`, end in the state of the macro semantics; the machine is busy until the last of them; and the pins then
stay until the next move or reset.  The end state of the macro semantics is log 17, the environment's elapsed times
log 19. -/
def Obligations.MicroStepsMakeTheMove : Prop :=
  (∀ (s : State) (i : Instr) (e : Quantity) (env : List (Option Instr × Quantity)),
      s.phase = .idle → env.length = 72 →
      (∀ p ∈ env, s.config.params.stepDelay.le p.2 = true) →
        (∀ n, n < 72 → ∃ t, microRun ((some i, e) :: env.take n) s = some t ∧ busy t = true) ∧
        ∃ t, microRun ((some i, e) :: env) s = some t ∧
          abstractView t = abstractView (move (flag1 i) (flag2 i) s) ∧
          t.trace = s.trace ++ [.accept (flag1 i) (flag2 i)] ++
            moveEvents s.config (flag1 i) (flag2 i) ++ [.done] ∧
          t.pins = heldPattern s.config (flag1 i) (flag2 i) 7 ∧ t.idx = 7 ∧ t.sub = 7 ∧
          t.f1 = flag1 i ∧ t.f2 = flag2 i ∧ t.phase = .idle ∧ busy t = false) ∧
    ∀ (n : Nat) (s : State), s.phase = .idle → quietFor n s →
      edges n s = .next { s with inputs := s.inputs.drop n }

/-- The clocked move (70_reset_and_hazards.md R91): an accepted command is busy at every edge from the next on, for
`64 + 8 * (DELAY_CYCLES + 1)` cycles, and after `1 + 64 + 8 * (DELAY_CYCLES + 1)` edges without a reset the machine is
in the state of the macro semantics of 41_move.md R47, whatever was offered meanwhile.  One step is one clock edge
(log 1); the end state of the macro semantics is log 17. -/
def Obligations.ClockedMoveTakesMoveEdges : Prop :=
  ∀ (s : State) (i : Instr), s.phase = .idle → offered (sample s) = some i →
    noReset (moveEdges s.config) s →
      (∀ n, 1 ≤ n → n < moveEdges s.config → ∃ t, edges n s = .next t ∧ busy t = true) ∧
      edges (moveEdges s.config) s =
        .next { move (flag1 i) (flag2 i) s with inputs := s.inputs.drop (moveEdges s.config) }

/-- Held patterns (41_move.md R47, R56, R57; the spec's own derivation is R60): after the eight writes of iteration
`i` in ANY order, from any pins, the pins are `(T1[i] | T2[i])`; and in every state that meets the invariant on the
pins they are so for the whole of the delay. -/
def Obligations.HeldPatternsInAnyWriteOrder : Prop :=
  (∀ (c : Config) (f1 f2 : Bool) (i : Fin 8) (order : List (Fin 8)) (p : Pins),
      (∀ j : Fin 8, j ∈ order) →
        writeInOrder c f1 f2 i order p = heldPattern c f1 f2 i) ∧
    ∀ s : State, pinsOk s → s.phase = .delay →
      ∀ (k : Fin 4),
        s.pins[logicalPin .one k] = rowCol (tableRow s.config (sel1 s.f1) s.idx) k ∧
          s.pins[logicalPin .two k] = rowCol (tableRow s.config (sel2 s.f2) s.idx) k

/-- Between the writes of iteration 1 to 7 each motor's four pins show a row of its table, the one before or the new
one (the spec derives it from R39, R56 and R57, in 70_reset_and_hazards.md R89): adjacency makes the intermediate
states harmless. -/
def Obligations.MotorsShowRowsBetweenWrites : Prop :=
  ∀ s : State, pinsOk s → s.phase = .write → s.idx ≠ 0 →
    ∀ m : Motor,
      motorPins m s.pins = tableRow s.config (selFor s.f1 s.f2 m) (s.idx - 1) ∨
        motorPins m s.pins = tableRow s.config (selFor s.f1 s.f2 m) s.idx

/-- A motor whose table the next command does not change goes by exactly one column from where the last move left it,
row 7, to row 0, the first row it will show (the spec derives it from R39, in 70_reset_and_hazards.md R87). -/
def Obligations.SameTableContinuesByOneColumn : Prop :=
  ∀ (s : State) (i : Instr) (m : Motor), idleOk s → s.phase = .idle → s.idx = 7 →
    selFor s.f1 s.f2 m = selFor (flag1 i) (flag2 i) m →
      popcount (motorPins m s.pins ^^^ tableRow s.config (selFor (flag1 i) (flag2 i) m) 0) = 1

/-- A move's writes do not depend on the pins before it, nor does anything else but the pins (10_state.md R16,
41_move.md R61): two runs that differ in the pins stay equal in everything else. -/
def Obligations.PinsAreNeverRead : Prop :=
  ∀ (n : Nat) (s t : State) (p : Pins), edges n s = .next t →
    ∃ q : Pins, edges n { s with pins := p } = .next { t with pins := q }

/-- Every move ends (41_move.md R58, 42_interfaces.md section 4): from any busy state that meets the control
invariant, without a reset, the machine is idle within the edges of one move.  One step is one clock edge (log 1). -/
def Obligations.EveryMoveEnds : Prop :=
  ∀ s : State, controlOk s → busy s = true → noReset (moveEdges s.config) s →
    ∃ n, n ≤ moveEdges s.config ∧ ∃ t, edges n s = .next t ∧ t.phase = .idle

/-- An offer held stable while a move is in flight is accepted when the move has ended (42_interfaces.md R66, 95
section 8 P5).  The schedule of offers is the model's own field (log 2). -/
def Obligations.HeldOfferIsAccepted : Prop :=
  ∀ (s : State) (w : Cmd2), controlOk s → offersHeld w (moveEdges s.config + 1) s →
    ∃ n, n ≤ moveEdges s.config ∧ ∃ t, edges n s = .next t ∧ t.phase = .idle ∧
      step t = exec (decode w) { t with inputs := t.inputs.tail }

/-! ### Invariants, refinement, traces -/

/-- The invariant holds in the reset state of every configuration, the machine's own among them.  The machine's own
configuration is free (log 3). -/
def Obligations.InvariantAtReset : Prop :=
  (∀ c : Config, Inv (State.resetOf c)) ∧ Inv State.reset

/-- Every clock edge keeps the invariant: the timer within its bound, the pins as 41_move.md R60 and
70_reset_and_hazards.md R89 say, the idle states as R62 and R82 leave them, the trace legal and as far as the
registers say. -/
def Obligations.EveryStepKeepsTheInvariant : Prop :=
  ∀ s t : State, Inv s → step s = .next t → Inv t

/-- Every micro-step of the machine without a clock keeps its invariant, whatever the timing.  The elapsed times are
the environment's (log 19). -/
def Obligations.EveryMicroStepKeepsTheInvariant : Prop :=
  ∀ (s t : State) (offer : Option Instr) (e : Quantity),
    AbstractInv s → microStep offer e s = some t → AbstractInv t

/-- The clocked machine refines the one without a clock (41_move.md R52, 42_interfaces.md section 2): every edge is a
reset, or a micro-step with the offer of its ports and an elapsed time of at least `STEP_DELAY`, or changes nothing
but the port schedule and the down-counter.  The clocked reading is log 1, the elapsed time log 19. -/
def Obligations.ClockRefinesMicroSteps : Prop :=
  ∀ s t : State, step s = .next t →
    ((sample s).rst = true ∧ t = applyReset { s with inputs := s.inputs.tail }) ∨
      (s.config.params.stepDelay.le (cyclesTime s.config (delayCycles s.config + 1)) = true ∧
        microStep (offered (sample s)) (cyclesTime s.config (delayCycles s.config + 1))
          { s with inputs := s.inputs.tail } = some t) ∨
      abstractView t = abstractView s

/-- At the abstract level reset may interleave anywhere (60_exceptions.md R72): it is enabled in every state and gives
the reset state (70_reset_and_hazards.md R82), after every run, and whatever comes after it goes on from the reset
state with the trace kept. Otherwise the enabled micro-step is unique: which one happens, and with what effect,
depends on the state alone, and in `IDLE` on the command offered. The elapsed times are the environment's (log 19). -/
def Obligations.ResetMayInterleaveAnywhere : Prop :=
  (∀ s : State, ∃ t, abstractStep .reset s = some t ∧
    t.phase = .idle ∧ t.f1 = false ∧ t.f2 = false ∧ t.idx = 0 ∧ t.sub = 0 ∧ t.timer = 0 ∧
    (∀ j : Fin 8, t.pins[j] = s.config.params.pinReset[j]) ∧ busy t = false ∧
    t.config = s.config ∧ t.trace = s.trace ++ [.reset]) ∧
  (∀ (before later : List AbstractAction) (s t : State), abstractRun before s = some t →
    abstractRun (before ++ .reset :: later) s =
      abstractRun later
        { State.resetOf s.config with inputs := s.inputs, trace := t.trace ++ [.reset] }) ∧
  ∀ (s t t' : State) (offer offer' : Option Instr) (e e' : Quantity),
    abstractStep (.micro offer e) s = some t → abstractStep (.micro offer' e') s = some t' →
    (s.phase = .idle → offer = offer') → t = t'

/-- Every run at the abstract level keeps the invariant, with resets anywhere in it and any timing (60_exceptions.md
R72; the elapsed times are log 19). -/
def Obligations.AbstractRunsKeepTheInvariant : Prop :=
  ∀ (run : List AbstractAction) (s t : State), AbstractInv s → abstractRun run s = some t → AbstractInv t

/-- Every run of the clocked machine is a run at the abstract level, resets included (42_interfaces.md section 2,
60_exceptions.md R72): some run of micro-steps and resets from the same state ends in the same state, but for the port
schedule and the down-counter, with the same trace among the rest.  The clocked reading is log 1, the elapsed times
log 19. -/
def Obligations.ClockedRunsAreAbstractRuns : Prop :=
  ∀ (n : Nat) (s t : State), edges n s = .next t →
    ∃ (run : List AbstractAction) (u : State),
      run.length ≤ n ∧ abstractRun run s = some u ∧ abstractView u = abstractView t ∧
        run.count .reset = ((s.inputs.take n).filter (·.rst)).length

/-- Legal traces count as 41_move.md R59 says: between moves and without a reset, every accepted command has made 64
writes, 8 to each pin, 8 delays, and has ended once. -/
def Obligations.LegalTracesCount : Prop :=
  ∀ (c : Config) (es : List Event), progressFrom c .idle es = some .idle → Event.reset ∉ es →
    es.countP isWrite = 64 * es.count .done ∧
      (∀ j : Fin 8, es.countP (isWriteTo j) = 8 * es.count .done) ∧
      es.count .delay = 8 * es.count .done ∧
      es.countP isAccept = es.count .done
end

