-- ==== Sys2Proof/Laws/Config.lean ====
section
/-! SUPPORT. What every configuration satisfies, read once from its proof field: row 0 of each table (40_step_table.md
R38), adjacency (R39), distinct pins (20_memory.md R26), positive quantities (00_scope.md R9); and that the physical
identifier of a pin leads back to its logical pin. -/

namespace Sys2Proof.Machine

/-- A list is taken as a container of a size exactly where it is that container's list. -/
theorem sized_eq_some_iff {α : Type} {n : Nat} (l : List α) (v : Vector α n) :
    sized n l = some v ↔ l = v.toList := by
  unfold sized
  split_ifs with h
  · rw [Option.some.injEq]
    constructor
    · rintro rfl; simp
    · rintro rfl; cases v; rfl
  · refine iff_of_false nofun ?_
    rintro rfl
    simp at h

/-- One bit in the exclusive or: the rows differ in exactly one column (40_step_table.md R39). -/
theorem popcount_xor_eq_one_iff (a b : Row) :
    popcount (a ^^^ b) = 1 ↔ ∃ k : Fin 4, ∀ k' : Fin 4, a.getLsbD k' ≠ b.getLsbD k' ↔ k' = k := by
  decide +revert

theorem problem_eq_none_iff (p : Parameters) :
    p.problem = none ↔
      (p.fwd[0] = fwdRow0 ∧ p.bwd[0] = bwdRow0) ∧ (adjacent p.fwd = true ∧ adjacent p.bwd = true) ∧
        pinsDistinct p.m1Pins p.m2Pins = true ∧ p.stepDelay.positive = true ∧
          p.fClk.positive = true := by
  unfold Parameters.problem
  split_ifs with h1 h2 h3 h4 h5 <;> simp_all

theorem config_fwd_row0 (c : Config) : c.params.fwd[0] = fwdRow0 :=
  ((problem_eq_none_iff _).1 c.admissible).1.1

theorem config_bwd_row0 (c : Config) : c.params.bwd[0] = bwdRow0 :=
  ((problem_eq_none_iff _).1 c.admissible).1.2

theorem config_adjacent (c : Config) (t : TableSel) : adjacent (tableOf c t) = true := by
  have h := ((problem_eq_none_iff _).1 c.admissible).2.1
  cases t
  · exact h.1
  · exact h.2

theorem config_stepDelay_pos (c : Config) :
    0 < c.params.stepDelay.num ∧ 0 < c.params.stepDelay.den := by
  simpa [Quantity.positive] using ((problem_eq_none_iff _).1 c.admissible).2.2.2.1

theorem config_fClk_pos (c : Config) : 0 < c.params.fClk.num ∧ 0 < c.params.fClk.den := by
  simpa [Quantity.positive] using ((problem_eq_none_iff _).1 c.admissible).2.2.2.2

/-- Adjacency, row by row. -/
theorem popcount_adjacent_rows (c : Config) (t : TableSel) (i : Fin 8) :
    popcount (tableRow c t i ^^^ tableRow c t (i + 1)) = 1 := by
  have h := config_adjacent c t
  simp only [adjacent, List.all_eq_true, beq_iff_eq] at h
  exact h i (List.mem_finRange i)

@[simp] theorem tableRow_fwd_zero (c : Config) : tableRow c .fwd 0 = 0b1001#4 := config_fwd_row0 c

@[simp] theorem tableRow_bwd_zero (c : Config) : tableRow c .bwd 0 = 0b0001#4 := config_bwd_row0 c

/-- The motor and the column of the logical pin of motor `m` column `k` are `m` and `k`. -/
theorem motorOf_logicalPin (m : Motor) (k : Fin 4) : motorOf (logicalPin m k) = m := by
  cases m <;> decide +revert

theorem colOf_logicalPin (m : Motor) (k : Fin 4) : colOf (logicalPin m k) = k := by
  cases m <;> decide +revert

theorem logicalPin_motorOf_colOf (j : Fin 8) : logicalPin (motorOf j) (colOf j) = j := by
  decide +revert

/-- The eight identifiers are pairwise distinct: equal identifiers are the same logical pin (20_memory.md R26). -/
theorem pinOf_injective (c : Config) (i j : Fin 8)
    (h : pinOf c (motorOf i) (colOf i) = pinOf c (motorOf j) (colOf j)) : i = j := by
  have hd : (c.params.m1Pins.toList ++ c.params.m2Pins.toList).Nodup := by
    simpa [pinsDistinct] using ((problem_eq_none_iff _).1 c.admissible).2.2.1
  have hl : c.params.m1Pins.toList ++ c.params.m2Pins.toList
      = (List.finRange 8).map fun j => pinOf c (motorOf j) (colOf j) := by
    apply List.ext_getElem (by simp)
    intro n h1 h2
    have hn : n < 8 := by simpa using h2
    interval_cases n <;> simp [pinOf, motorOf, colOf]
  rw [hl] at hd
  exact List.inj_on_of_nodup_map hd (List.mem_finRange i) (List.mem_finRange j) h

/-- A configured identifier names exactly the logical pin `4*(m-1)+k` (42_interfaces.md R63). -/
@[simp] theorem logicalOf_pinOf (c : Config) (m : Motor) (k : Fin 4) :
    logicalOf c (pinOf c m k) = some (logicalPin m k) := by
  rcases hf : logicalOf c (pinOf c m k) with _ | j
  · have hn := List.find?_eq_none.1 hf (logicalPin m k) (List.mem_finRange _)
    simp [motorOf_logicalPin, colOf_logicalPin] at hn
  · have hs := List.find?_some hf
    have he : pinOf c (motorOf j) (colOf j) = pinOf c m k := by simpa using hs
    have hj := pinOf_injective c j (logicalPin m k)
      (by rw [he, motorOf_logicalPin, colOf_logicalPin])
    rw [hj]

/-- `DELAY_CYCLES` is at least 1, since both factors are positive. -/
theorem delayCycles_pos (c : Config) : 0 < delayCycles c := by
  obtain ⟨h1, h2⟩ := config_stepDelay_pos c
  obtain ⟨h3, h4⟩ := config_fClk_pos c
  have hn := Nat.mul_pos h1 h3
  have hd := Nat.mul_pos h2 h4
  exact Nat.div_pos (by omega) hd

/-- `DELAY_CYCLES` is a ceiling: times the denominator it reaches the numerator of `STEP_DELAY * F_CLK`. -/
theorem le_delayCycles_mul (c : Config) :
    c.params.stepDelay.num * c.params.fClk.num ≤
      delayCycles c * (c.params.stepDelay.den * c.params.fClk.den) := by
  obtain ⟨-, h2⟩ := config_stepDelay_pos c
  obtain ⟨-, h4⟩ := config_fClk_pos c
  have hd := Nat.mul_pos h2 h4
  simp only [delayCycles]
  generalize c.params.stepDelay.num * c.params.fClk.num = n
  generalize c.params.stepDelay.den * c.params.fClk.den = d at *
  have h1 := Nat.div_add_mod (n + d - 1) d
  have h3 := Nat.mod_lt (n + d - 1) hd
  rw [Nat.mul_comm] at h1
  omega

end Sys2Proof.Machine
end

