-- ==== Sys2Proof/Laws/State.lean ====
section
/-! SUPPORT. One lemma per field per operation that updates the state without a case split, true by rfl. -/

namespace Sys2Proof.Machine

variable (s : State) (f1 f2 : Bool) (c : Config)

@[simp] theorem consume_config : (consume s).config = s.config := rfl
@[simp] theorem consume_inputs : (consume s).inputs = s.inputs.tail := rfl
@[simp] theorem consume_f1 : (consume s).f1 = s.f1 := rfl
@[simp] theorem consume_f2 : (consume s).f2 = s.f2 := rfl
@[simp] theorem consume_idx : (consume s).idx = s.idx := rfl
@[simp] theorem consume_phase : (consume s).phase = s.phase := rfl
@[simp] theorem consume_sub : (consume s).sub = s.sub := rfl
@[simp] theorem consume_timer : (consume s).timer = s.timer := rfl
@[simp] theorem consume_pins : (consume s).pins = s.pins := rfl
@[simp] theorem consume_trace : (consume s).trace = s.trace := rfl

@[simp] theorem accept_config : (accept f1 f2 s).config = s.config := rfl
@[simp] theorem accept_inputs : (accept f1 f2 s).inputs = s.inputs := rfl
@[simp] theorem accept_f1 : (accept f1 f2 s).f1 = f1 := rfl
@[simp] theorem accept_f2 : (accept f1 f2 s).f2 = f2 := rfl
@[simp] theorem accept_idx : (accept f1 f2 s).idx = 0 := rfl
@[simp] theorem accept_phase : (accept f1 f2 s).phase = .write := rfl
@[simp] theorem accept_sub : (accept f1 f2 s).sub = 0 := rfl
@[simp] theorem accept_timer : (accept f1 f2 s).timer = s.timer := rfl
@[simp] theorem accept_pins : (accept f1 f2 s).pins = s.pins := rfl
@[simp] theorem accept_trace : (accept f1 f2 s).trace = s.trace ++ [.accept f1 f2] := rfl

@[simp] theorem applyReset_config : (applyReset s).config = s.config := rfl
@[simp] theorem applyReset_inputs : (applyReset s).inputs = s.inputs := rfl
@[simp] theorem applyReset_f1 : (applyReset s).f1 = false := rfl
@[simp] theorem applyReset_f2 : (applyReset s).f2 = false := rfl
@[simp] theorem applyReset_idx : (applyReset s).idx = 0 := rfl
@[simp] theorem applyReset_phase : (applyReset s).phase = .idle := rfl
@[simp] theorem applyReset_sub : (applyReset s).sub = 0 := rfl
@[simp] theorem applyReset_timer : (applyReset s).timer = 0 := rfl
@[simp] theorem applyReset_pins : (applyReset s).pins = s.config.params.pinReset := rfl
@[simp] theorem applyReset_trace : (applyReset s).trace = s.trace ++ [.reset] := rfl

@[simp] theorem delayTick_config : (delayTick s).config = s.config := rfl
@[simp] theorem delayTick_inputs : (delayTick s).inputs = s.inputs := rfl
@[simp] theorem delayTick_f1 : (delayTick s).f1 = s.f1 := rfl
@[simp] theorem delayTick_f2 : (delayTick s).f2 = s.f2 := rfl
@[simp] theorem delayTick_idx : (delayTick s).idx = s.idx := rfl
@[simp] theorem delayTick_phase : (delayTick s).phase = s.phase := rfl
@[simp] theorem delayTick_sub : (delayTick s).sub = s.sub := rfl
@[simp] theorem delayTick_timer : (delayTick s).timer = s.timer - 1 := rfl
@[simp] theorem delayTick_pins : (delayTick s).pins = s.pins := rfl
@[simp] theorem delayTick_trace : (delayTick s).trace = s.trace := rfl

@[simp] theorem resetOf_config : (State.resetOf c).config = c := rfl
@[simp] theorem resetOf_inputs : (State.resetOf c).inputs = [] := rfl
@[simp] theorem resetOf_f1 : (State.resetOf c).f1 = false := rfl
@[simp] theorem resetOf_f2 : (State.resetOf c).f2 = false := rfl
@[simp] theorem resetOf_idx : (State.resetOf c).idx = 0 := rfl
@[simp] theorem resetOf_phase : (State.resetOf c).phase = .idle := rfl
@[simp] theorem resetOf_sub : (State.resetOf c).sub = 0 := rfl
@[simp] theorem resetOf_timer : (State.resetOf c).timer = 0 := rfl
@[simp] theorem resetOf_pins : (State.resetOf c).pins = c.params.pinReset := rfl
@[simp] theorem resetOf_trace : (State.resetOf c).trace = [] := rfl

end Sys2Proof.Machine
end

