-- ==== Sys2Proof/Laws/Ops.lean ====
section
/-! SUPPORT. What each shared operation can do, said once: the pin output primitive, the micro-steps, `exec` and `step`. -/

namespace Sys2Proof.Machine

variable (s t : State) (f1 f2 : Bool)

/-- `SetPin(Pin(m,k), v)` is `PIN[4*(m-1)+k] <- v` with its event (42_interfaces.md R63). -/
theorem setPin_pinOf (m : Motor) (k : Fin 4) (v : Bool) :
    setPin (pinOf s.config m k) v s =
      { s with
        pins := s.pins.set (logicalPin m k) v
        trace := s.trace ++ [.setPin (logicalPin m k) v] } := by
  simp [setPin]

/-- An identifier outside the eight reaches no output (20_memory.md R22). -/
theorem setPin_of_none (p : PinId) (v : Bool) (h : logicalOf s.config p = none) : setPin p v s = s := by
  simp [setPin, h]

/-- WRITE before the eighth write of an iteration (41_move.md R54). -/
theorem writePin_of_ne (h : s.sub ≠ 7) :
    writePin s =
      { s with
        pins := s.pins.set s.sub (writeValue s.config s.f1 s.f2 s.idx s.sub)
        trace := s.trace ++ [.setPin s.sub (writeValue s.config s.f1 s.f2 s.idx s.sub)]
        sub := s.sub + 1 } := by
  simp [writePin, setPin_pinOf, logicalPin_motorOf_colOf, writeValue, h]

/-- WRITE of the eighth write: the delay starts (41_move.md R54, 60_exceptions.md R76). -/
theorem writePin_of_eq (h : s.sub = 7) :
    writePin s =
      { s with
        pins := s.pins.set s.sub (writeValue s.config s.f1 s.f2 s.idx s.sub)
        trace := s.trace ++ [.setPin s.sub (writeValue s.config s.f1 s.f2 s.idx s.sub)]
        phase := .delay
        timer := delayCycles s.config } := by
  simp only [writePin, setPin_pinOf, logicalPin_motorOf_colOf, writeValue, if_pos h]

@[simp] theorem writePin_config : (writePin s).config = s.config := by
  by_cases h : s.sub = 7 <;> simp [writePin_of_eq, writePin_of_ne, h]

@[simp] theorem writePin_inputs : (writePin s).inputs = s.inputs := by
  by_cases h : s.sub = 7 <;> simp [writePin_of_eq, writePin_of_ne, h]

@[simp] theorem writePin_f1 : (writePin s).f1 = s.f1 := by
  by_cases h : s.sub = 7 <;> simp [writePin_of_eq, writePin_of_ne, h]

@[simp] theorem writePin_f2 : (writePin s).f2 = s.f2 := by
  by_cases h : s.sub = 7 <;> simp [writePin_of_eq, writePin_of_ne, h]

@[simp] theorem writePin_idx : (writePin s).idx = s.idx := by
  by_cases h : s.sub = 7 <;> simp [writePin_of_eq, writePin_of_ne, h]

@[simp] theorem writePin_pins :
    (writePin s).pins = s.pins.set s.sub (writeValue s.config s.f1 s.f2 s.idx s.sub) := by
  by_cases h : s.sub = 7
  · rw [writePin_of_eq s h]
  · rw [writePin_of_ne s h]

@[simp] theorem writePin_trace :
    (writePin s).trace = s.trace ++ [.setPin s.sub (writeValue s.config s.f1 s.f2 s.idx s.sub)] := by
  by_cases h : s.sub = 7
  · rw [writePin_of_eq s h]
  · rw [writePin_of_ne s h]

/-- DELAY-END of iteration 7: the move ends (41_move.md R55). -/
theorem delayEnd_of_eq (h : s.idx = 7) :
    delayEnd s = { s with phase := .idle, trace := s.trace ++ [.delay, .done] } := by
  simp only [delayEnd, if_pos h]

/-- DELAY-END of an earlier iteration: the next begins (41_move.md R55). -/
theorem delayEnd_of_ne (h : s.idx ≠ 7) :
    delayEnd s =
      { s with idx := s.idx + 1, sub := 0, phase := .write, trace := s.trace ++ [.delay] } := by
  simp only [delayEnd, if_neg h]

@[simp] theorem delayEnd_config : (delayEnd s).config = s.config := by
  simp only [delayEnd]; split <;> rfl

@[simp] theorem delayEnd_inputs : (delayEnd s).inputs = s.inputs := by
  simp only [delayEnd]; split <;> rfl

@[simp] theorem delayEnd_pins : (delayEnd s).pins = s.pins := by
  simp only [delayEnd]; split <;> rfl

@[simp] theorem delayEnd_timer : (delayEnd s).timer = s.timer := by
  simp only [delayEnd]; split <;> rfl

@[simp] theorem delayEnd_f1 : (delayEnd s).f1 = s.f1 := by
  simp only [delayEnd]; split <;> rfl

@[simp] theorem delayEnd_f2 : (delayEnd s).f2 = s.f2 := by
  simp only [delayEnd]; split <;> rfl

/-- What one clock edge of a command can do: accept, write, end the delay, or let it run on. -/
theorem moveEdge_cases :
    (s.phase = .idle ∧ moveEdge f1 f2 s = accept f1 f2 s) ∨
      (s.phase = .write ∧ moveEdge f1 f2 s = writePin s) ∨
      (s.phase = .delay ∧ s.timer = 0 ∧ moveEdge f1 f2 s = delayEnd s) ∨
      (s.phase = .delay ∧ s.timer ≠ 0 ∧ moveEdge f1 f2 s = delayTick s) := by
  unfold moveEdge
  cases s.phase <;> by_cases h : s.timer = 0 <;> simp [h]

/-- Every command answers a next state, in every state: one clock edge of its `move`. -/
theorem exec_eq (i : Instr) : exec i s = .next (moveEdge (flag1 i) (flag2 i) s) := by
  cases i <;> rfl

/-- While a move is in flight the command given to `exec` has no influence (42_interfaces.md R66). -/
theorem moveEdge_busy (h : s.phase ≠ .idle) (g1 g2 : Bool) : moveEdge f1 f2 s = moveEdge g1 g2 s := by
  unfold moveEdge
  cases hp : s.phase <;> simp_all

@[simp] theorem flag1_ofFlags : flag1 (ofFlags f1 f2) = f1 := by cases f1 <;> cases f2 <;> rfl

@[simp] theorem flag2_ofFlags : flag2 (ofFlags f1 f2) = f2 := by cases f1 <;> cases f2 <;> rfl

/-- Everything one clock edge can do (60_exceptions.md R72). -/
theorem step_cases (h : step s = .next t) :
    ((sample s).rst = true ∧ t = applyReset (consume s)) ∨
      ((sample s).rst = false ∧
        ((s.phase = .idle ∧ (offered (sample s) = none) ∧ t = consume s) ∨
          (∃ i, s.phase = .idle ∧ offered (sample s) = some i ∧
            t = accept (flag1 i) (flag2 i) (consume s)) ∨
          (s.phase = .write ∧ t = writePin (consume s)) ∨
          (s.phase = .delay ∧ s.timer = 0 ∧ t = delayEnd (consume s)) ∨
          (s.phase = .delay ∧ s.timer ≠ 0 ∧ t = delayTick (consume s)))) := by
  unfold step at h
  by_cases hr : (sample s).rst = true
  · simp only [hr, if_true, Host.Outcome.next.injEq] at h
    exact .inl ⟨hr, h.symm⟩
  · refine .inr ⟨by simpa using hr, ?_⟩
    rw [if_neg hr] at h
    by_cases hi : s.phase = .idle
    · have hb : busy s = false := by simp [busy, hi]
      simp only [current, hb] at h
      rcases ho : offered (sample s) with _ | i
      · simp only [ho, Host.Outcome.next.injEq, Bool.false_eq_true, if_false] at h
        exact .inl ⟨hi, rfl, h.symm⟩
      · simp only [ho, exec_eq, Host.Outcome.next.injEq, Bool.false_eq_true, if_false] at h
        refine .inr (.inl ⟨i, hi, rfl, ?_⟩)
        rw [← h]; simp [moveEdge, hi]
    · have hb : busy s = true := by simp [busy, hi]
      simp only [current, hb, if_true, exec_eq, Host.Outcome.next.injEq] at h
      subst h
      refine .inr (.inr ?_)
      rcases moveEdge_cases (consume s) (flag1 (ofFlags s.f1 s.f2)) (flag2 (ofFlags s.f1 s.f2)) with
        ⟨hp, -⟩ | ⟨hp, he⟩ | ⟨hp, ht, he⟩ | ⟨hp, ht, he⟩
      · exact absurd hp hi
      · exact .inl ⟨hp, he⟩
      · exact .inr (.inl ⟨hp, ht, he⟩)
      · exact .inr (.inr ⟨hp, ht, he⟩)

end Sys2Proof.Machine
end

