-- ==== Sys2Proof/Laws/Abstract.lean ====
section
/-! SUPPORT. What a step and a run at the abstract level can do (41_move.md R52, 60_exceptions.md R72). -/

namespace Sys2Proof.Machine

@[simp] theorem abstractView_config (s : State) : (abstractView s).config = s.config := rfl
@[simp] theorem abstractView_inputs (s : State) : (abstractView s).inputs = [] := rfl
@[simp] theorem abstractView_f1 (s : State) : (abstractView s).f1 = s.f1 := rfl
@[simp] theorem abstractView_f2 (s : State) : (abstractView s).f2 = s.f2 := rfl
@[simp] theorem abstractView_idx (s : State) : (abstractView s).idx = s.idx := rfl
@[simp] theorem abstractView_phase (s : State) : (abstractView s).phase = s.phase := rfl
@[simp] theorem abstractView_sub (s : State) : (abstractView s).sub = s.sub := rfl
@[simp] theorem abstractView_timer (s : State) : (abstractView s).timer = 0 := rfl
@[simp] theorem abstractView_pins (s : State) : (abstractView s).pins = s.pins := rfl
@[simp] theorem abstractView_trace (s : State) : (abstractView s).trace = s.trace := rfl

@[simp] theorem abstractStep_reset (s : State) : abstractStep .reset s = some (applyReset s) := rfl

@[simp] theorem abstractStep_micro (offer : Option Instr) (e : Quantity) (s : State) :
    abstractStep (.micro offer e) s = microStep offer e s := rfl

/-- Everything a step at the abstract level can do: reset, ACCEPT, WRITE, DELAY-END. -/
theorem abstractStep_cases {a : AbstractAction} {s t : State} (h : abstractStep a s = some t) :
    (a = .reset ∧ t = applyReset s) ∨
      (∃ i e, a = .micro (some i) e ∧ s.phase = .idle ∧ t = accept (flag1 i) (flag2 i) s) ∨
      (∃ offer e, a = .micro offer e ∧ s.phase = .write ∧ t = writePin s) ∨
      (∃ offer e, a = .micro offer e ∧ s.phase = .delay ∧ s.config.params.stepDelay.le e = true ∧
        t = delayEnd s) := by
  rcases a with _ | ⟨offer, e⟩
  · exact .inl ⟨rfl, (Option.some.inj h).symm⟩
  · refine .inr ?_
    simp only [abstractStep_micro, microStep] at h
    split at h
    · obtain ⟨i, rfl, rfl⟩ := Option.map_eq_some_iff.1 h
      exact .inl ⟨i, e, rfl, ‹_›, rfl⟩
    · exact .inr (.inl ⟨offer, e, rfl, ‹_›, (Option.some.inj h).symm⟩)
    · split at h
      · exact .inr (.inr ⟨offer, e, rfl, ‹_›, ‹_›, (Option.some.inj h).symm⟩)
      · cases h

/-- No step at the abstract level changes the constants or the port schedule. -/
theorem abstractStep_frame {a : AbstractAction} {s t : State} (h : abstractStep a s = some t) :
    t.config = s.config ∧ t.inputs = s.inputs := by
  rcases abstractStep_cases h with ⟨-, rfl⟩ | ⟨i, e, -, -, rfl⟩ | ⟨o, e, -, -, rfl⟩ | ⟨o, e, -, -, -, rfl⟩ <;> simp

/-- What a step does to the abstract view depends on the abstract view alone: neither the port schedule nor the
down-counter is read. -/
theorem abstractStep_view (a : AbstractAction) (s : State) :
    (abstractStep a (abstractView s)).map abstractView = (abstractStep a s).map abstractView := by
  rcases a with _ | ⟨offer, e⟩
  · rfl
  · simp only [abstractStep_micro, microStep, abstractView_phase]
    split
    · cases offer <;> rfl
    · by_cases h : s.sub = 7
      · rw [writePin_of_eq s h, writePin_of_eq (abstractView s) h]; rfl
      · rw [writePin_of_ne s h, writePin_of_ne (abstractView s) h]; rfl
    · by_cases hd : s.config.params.stepDelay.le e = true
      · have hv : (abstractView s).config.params.stepDelay.le e = true := hd
        rw [if_pos hv, if_pos hd]
        by_cases h : s.idx = 7
        · rw [delayEnd_of_eq s h, delayEnd_of_eq (abstractView s) h]; rfl
        · rw [delayEnd_of_ne s h, delayEnd_of_ne (abstractView s) h]; rfl
      · have hv : ¬(abstractView s).config.params.stepDelay.le e = true := hd
        rw [if_neg hv, if_neg hd]

@[simp] theorem abstractRun_nil (s : State) : abstractRun [] s = some s := rfl

/-- One more action first. -/
theorem abstractRun_cons (a : AbstractAction) (l : List AbstractAction) (s : State) :
    abstractRun (a :: l) s = (abstractStep a s).bind (abstractRun l) := by
  rw [abstractRun]
  cases abstractStep a s <;> rfl

/-- A run is its first part and then the rest. -/
theorem abstractRun_append (l m : List AbstractAction) (s : State) :
    abstractRun (l ++ m) s = (abstractRun l s).bind (abstractRun m) := by
  induction l generalizing s with
  | nil => rfl
  | cons a l ih =>
    rw [List.cons_append, abstractRun_cons, abstractRun_cons, Option.bind_assoc]
    exact congrArg _ (funext ih)

/-- No run at the abstract level changes the constants or the port schedule. -/
theorem abstractRun_frame {l : List AbstractAction} {s t : State} (h : abstractRun l s = some t) :
    t.config = s.config ∧ t.inputs = s.inputs := by
  induction l generalizing s with
  | nil => cases h; exact ⟨rfl, rfl⟩
  | cons a l ih =>
    rw [abstractRun_cons, Option.bind_eq_some_iff] at h
    obtain ⟨u, hu, ht⟩ := h
    exact ⟨(ih ht).1.trans (abstractStep_frame hu).1, (ih ht).2.trans (abstractStep_frame hu).2⟩

/-- A run without a reset is a run of micro-steps (41_move.md R62). -/
theorem abstractRun_micro (env : List (Option Instr × Quantity)) (s : State) :
    abstractRun (env.map fun p => .micro p.1 p.2) s = microRun env s := by
  induction env generalizing s with
  | nil => rfl
  | cons p env ih =>
    rw [List.map_cons, abstractRun_cons, abstractStep_micro, microRun]
    cases microStep p.1 p.2 s with
    | none => rfl
    | some t => exact ih t

end Sys2Proof.Machine
end

