-- ==== Sys2Proof/Laws/Decode.lean ====
section
/-! SUPPORT. What reading a line of a program does to its comment and its spaces (30_encoding.md R36; log 18). -/

namespace Sys2Proof

variable {l : List Char}

/-- A line without `#` has no comment. -/
theorem dropComment_of_not_mem (h : '#' ∉ l) : dropComment l = l := by
  rw [dropComment, List.takeWhile_eq_self_iff]
  intro c hc
  simp only [bne_iff_ne]
  rintro rfl
  exact h hc

/-- A comment runs from `#` to the end of the line. -/
theorem dropComment_append (h : '#' ∉ l) (text : List Char) : dropComment (l ++ '#' :: text) = l := by
  have hl := dropComment_of_not_mem h
  rw [dropComment] at hl ⊢
  rw [List.takeWhile_append, hl]
  simp

/-- Spaces after a line are dropped. -/
theorem trimSpaces_append_replicate (n : Nat) : trimSpaces (l ++ List.replicate n ' ') = trimSpaces l := by
  simp only [trimSpaces, List.dropWhile_append]
  split
  · next h => simp [List.isEmpty_iff.1 h]
  · simp

/-- A list is its leading spaces and the rest. -/
theorem replicate_append_dropWhile (l : List Char) :
    ∃ n, l = List.replicate n ' ' ++ l.dropWhile (· == ' ') := by
  refine ⟨(l.takeWhile (· == ' ')).length, ?_⟩
  have h : l.takeWhile (· == ' ') = List.replicate (l.takeWhile (· == ' ')).length ' ' :=
    List.eq_replicate_of_mem fun c hc => by simpa using List.mem_takeWhile_imp hc
  rw [← h, List.takeWhile_append_dropWhile]

/-- A line is its trimmed text with spaces at both ends. -/
theorem eq_pad_trimSpaces (l : List Char) :
    ∃ a b, l = List.replicate a ' ' ++ trimSpaces l ++ List.replicate b ' ' := by
  obtain ⟨a, ha⟩ := replicate_append_dropWhile l
  obtain ⟨b, hb⟩ := replicate_append_dropWhile (l.dropWhile (· == ' ')).reverse
  refine ⟨a, b, ?_⟩
  have hr := congrArg List.reverse hb
  rw [List.reverse_reverse, List.reverse_append, List.reverse_replicate] at hr
  rw [trimSpaces, List.append_assoc, ← hr]
  exact ha

end Sys2Proof
end

