-- ==== Sys2Proof/Laws/Macro.lean ====
section
/-! SUPPORT. What the macro view of a move says, value by value: the held pattern at each pin, the nine events of each
iteration, the whole of `Apply`, one pass of the loop, and the length of a move's events. -/

namespace Sys2Proof.Machine

variable (c : Config) (f1 f2 : Bool)

/-- The held pattern at logical pin `j` is the value written there (41_move.md R60). -/
@[simp] theorem heldPattern_getElem (i j : Fin 8) :
    (heldPattern c f1 f2 i)[j] = writeValue c f1 f2 i j := by
  fin_cases j <;> rfl

/-- Pins that show every written value are the held pattern. -/
theorem eq_heldPattern_iff (i : Fin 8) (p : Pins) :
    p = heldPattern c f1 f2 i ↔ ∀ j : Fin 8, p[j] = writeValue c f1 f2 i j := by
  constructor
  · rintro rfl j; exact heldPattern_getElem c f1 f2 i j
  · intro h
    apply Vector.ext
    intro n hn
    have := h ⟨n, hn⟩
    rw [← heldPattern_getElem] at this
    exact this

/-- The pin read back after a write: the value at that pin, the old level at any other. -/
theorem pins_getElem_set (p : Pins) (a : Fin 8) (v : Bool) (j : Fin 8) :
    (p.set a v)[j] = if j = a then v else p[j] := by
  simp only [Fin.getElem_fin, Vector.getElem_set]
  by_cases h : j = a
  · simp [h]
  · rw [if_neg h, if_neg (fun e => h (Fin.ext e.symm))]

@[simp] theorem rowEvents_length (r1 r2 : Row) : (rowEvents r1 r2).length = 9 := rfl

@[simp] theorem moveEvents_length : (moveEvents c f1 f2).length = 72 := rfl

/-- Event `9 * i + j` of a move is the write to pin `j` in iteration `i` (41_move.md R47). -/
theorem moveEvents_write (i j : Fin 8) :
    (moveEvents c f1 f2)[9 * i.val + j.val]? = some (.setPin j (writeValue c f1 f2 i j)) := by
  fin_cases i <;> fin_cases j <;> rfl

/-- Event `9 * i + 8` of a move is the delay of iteration `i` (41_move.md R47). -/
theorem moveEvents_delay (i : Fin 8) : (moveEvents c f1 f2)[9 * i.val + 8]? = some .delay := by
  fin_cases i <;> rfl

/-- Both applications of one iteration set the whole pattern and record its eight writes (41_move.md R56, R57). -/
theorem applyRow_both (s : State) (r1 r2 : Row) :
    applyRow .two r2 (applyRow .one r1 s) =
      { s with
        pins := pairPattern r1 r2
        trace := s.trace ++
          [.setPin 0 (rowCol r1 0), .setPin 1 (rowCol r1 1), .setPin 2 (rowCol r1 2),
           .setPin 3 (rowCol r1 3), .setPin 4 (rowCol r2 0), .setPin 5 (rowCol r2 1),
           .setPin 6 (rowCol r2 2), .setPin 7 (rowCol r2 3)] } := by
  have hf : List.finRange 4 = [0, 1, 2, 3] := rfl
  simp only [applyRow, hf, List.foldl_cons, List.foldl_nil, setPin_pinOf]
  simp only [State.mk.injEq, true_and]
  constructor
  · apply (Vector.ext fun n hn => ?_)
    interval_cases n <;> simp [pairPattern, logicalPin]
  · simp [logicalPin]

/-- One pass of the loop of 41_move.md R47: the pins hold the new pattern and nine events are recorded. -/
theorem moveIteration_eq (s : State) :
    moveIteration f1 f2 s =
      { s with
        idx := if s.idx = 7 then s.idx else s.idx + 1
        pins := heldPattern s.config f1 f2 s.idx
        trace := s.trace ++
          rowEvents (tableRow s.config (sel1 f1) s.idx) (tableRow s.config (sel2 f2) s.idx) } := by
  have hc : (applyRow .one (tableRow s.config (sel1 f1) s.idx) s).config = s.config := by
    simp [applyRow, setPin_pinOf, List.finRange]
  have hi : (applyRow .one (tableRow s.config (sel1 f1) s.idx) s).idx = s.idx := by
    simp [applyRow, setPin_pinOf, List.finRange]
  simp only [moveIteration, hc, hi, applyRow_both]
  by_cases h : s.idx = 7 <;> simp [h, heldPattern, rowEvents]

/-- The macro semantics in one state: the end state of 41_move.md R62. -/
theorem move_eq (s : State) :
    move f1 f2 s =
      { s with
        f1 := f1, f2 := f2, idx := 7, phase := .idle, sub := 7, timer := 0
        pins := heldPattern s.config f1 f2 7
        trace := s.trace ++ [.accept f1 f2] ++ moveEvents s.config f1 f2 ++ [.done] } := by
  have hf : List.finRange 8 = [0, 1, 2, 3, 4, 5, 6, 7] := rfl
  simp only [move, moveLoop, moveIteration_eq]
  simp [moveEvents, tableEvents, hf, rowEvents]

end Sys2Proof.Machine
end

