-- ==== Sys2Proof/Laws/PerInstr.lean ====
section
/-! SUPPORT. Statements made per command: its word and its flags, as spec/opcode_table.json and 30_encoding.md R28, R31
write them out. -/

namespace Sys2Proof.Laws.CommandWord

/-- The command is well formed, bit 1 of its word is its first flag and bit 0 its second, and it is the command of that
pair of flags. -/
def Statement (i : Instr) : Prop :=
  i.wellFormed = true ∧ (encode i).getLsbD 1 = flag1 i ∧ (encode i).getLsbD 0 = flag2 i ∧
    ofFlags (flag1 i) (flag2 i) = i

theorem down : Statement .down := by simp [Statement, encode, flag1, flag2, ofFlags, Instr.wellFormed]

theorem up : Statement .up := by simp [Statement, encode, flag1, flag2, ofFlags, Instr.wellFormed]

theorem left : Statement .left := by simp [Statement, encode, flag1, flag2, ofFlags, Instr.wellFormed]

theorem right : Statement .right := by simp [Statement, encode, flag1, flag2, ofFlags, Instr.wellFormed]

end Sys2Proof.Laws.CommandWord
end

