-- ==== Sys2Proof/Laws/Run.lean ====
section
/-! SUPPORT. Runs of the clocked machine, edge by edge. -/

namespace Sys2Proof.Safety

open Sys2Proof.Machine

/-- No edges: the state itself. -/
@[simp] theorem edges_zero (s : State) : edges 0 s = .next s := rfl

/-- One more edge first, in any machine behind the host's interface. -/
theorem run_succ (M : Host.Core) (n : Nat) (s t : M.State) (h : M.step s = .next t) :
    M.run (n + 1) s = M.run n t := by
  simp [Host.Core.run, h]

/-- One more edge first. -/
theorem edges_succ (n : Nat) (s t : State) (h : step s = .next t) : edges (n + 1) s = edges n t :=
  run_succ Sys2Proof.core n s t h

end Sys2Proof.Safety
end

