-- ==== Sys2Proof/Tests/Slice0.lean ====
section
/-! SUPPORT. Tests of the definitions against the values that spec/95_test_vectors.md and the encoding tables write
out, each about one step of a small state, and, for every statement with hypotheses, a witness that meets them. -/

namespace Sys2Proof.Tests

open Sys2Proof.Machine Sys2Proof.Safety

/-! ### Configurations offered (95 section 2) -/

/-- ACC1: the reference tables, pins 0 to 7. -/
def acc1 : RawConfig where
  fwd := [0b1001#4, 0b1000#4, 0b1100#4, 0b0100#4, 0b0110#4, 0b0010#4, 0b0011#4, 0b0001#4]
  bwd := [0b0001#4, 0b0011#4, 0b0010#4, 0b0110#4, 0b0100#4, 0b1100#4, 0b1000#4, 0b1001#4]
  m1Pins := [0, 1, 2, 3]
  m2Pins := [4, 5, 6, 7]
  stepDelay := ⟨1000, 1⟩
  fClk := ⟨1, 1⟩
  pinReset := [false, false, false, false, false, false, false, false]

/-- Why an offered configuration is refused, or none where it is accepted. -/
def refusal (r : RawConfig) : Option ConfigProblem :=
  match configure r with
  | .ok _ => none
  | .error e => some e

theorem test_commands_well_formed :
    Instr.down.wellFormed && Instr.up.wellFormed && Instr.left.wellFormed && Instr.right.wellFormed = true := by decide

theorem test_configure_acc1 : refusal acc1 = none := by decide

/-- ACC2: another coil order. -/
theorem test_configure_acc2 :
    refusal { acc1 with
      fwd := [0b1001#4, 0b1000#4, 0b1010#4, 0b0010#4, 0b0110#4, 0b0100#4, 0b0101#4, 0b0001#4] } = none := by decide

/-- ACC3: rows repeat. -/
theorem test_configure_acc3 :
    refusal { acc1 with
      bwd := [0b0001#4, 0b0000#4, 0b0001#4, 0b0000#4, 0b0001#4, 0b0000#4, 0b0001#4, 0b0000#4] } = none := by decide

/-- NEG1: row 3 of `FWD` two columns away from both its neighbours. -/
theorem test_refuse_adjacency :
    refusal { acc1 with
      fwd := [0b1001#4, 0b1000#4, 0b1100#4, 0b0101#4, 0b0110#4, 0b0010#4, 0b0011#4, 0b0001#4] } =
      some .adjacency := by decide

/-- Only the step from row 7 round to row 0 breaks adjacency (40_step_table.md R39, circular case). -/
theorem test_refuse_adjacency_wrap :
    refusal { acc1 with
      bwd := [0b0001#4, 0b0011#4, 0b0010#4, 0b0110#4, 0b0100#4, 0b1100#4, 0b1000#4, 0b1010#4] } =
      some .adjacency := by decide

/-- NEG2: `FWD` rotated by one. -/
theorem test_refuse_rowZero :
    refusal { acc1 with
      fwd := [0b1000#4, 0b1100#4, 0b0100#4, 0b0110#4, 0b0010#4, 0b0011#4, 0b0001#4, 0b1001#4] } =
      some .rowZero := by decide

/-- NEG3: `BWD` with 7 rows. -/
theorem test_refuse_tableShape :
    refusal { acc1 with bwd := [0b0001#4, 0b0011#4, 0b0010#4, 0b0110#4, 0b0100#4, 0b1100#4, 0b1000#4] } =
      some .tableShape := by decide

/-- A pin set of three identifiers. -/
theorem test_refuse_pinSetShape : refusal { acc1 with m2Pins := [4, 5, 6] } = some .pinSetShape := by decide

/-- Nine reset levels. -/
theorem test_refuse_pinResetShape :
    refusal { acc1 with pinReset := [false, false, false, false, false, false, false, false, true] } =
      some .pinResetShape := by decide

/-- NEG4: 22 in both pin sets. -/
theorem test_refuse_pinOverlap_across :
    refusal { acc1 with m1Pins := [17, 18, 27, 22], m2Pins := [22, 23, 24, 25] } = some .pinOverlap := by decide

/-- NEG5: 5 twice in one pin set. -/
theorem test_refuse_pinOverlap_within : refusal { acc1 with m1Pins := [5, 5, 6, 13] } = some .pinOverlap := by decide

/-- `STEP_DELAY` of 0 (00_scope.md R9). -/
theorem test_refuse_stepDelay : refusal { acc1 with stepDelay := ⟨0, 1⟩ } = some .stepDelay := by decide

/-- `F_CLK` of 0 (00_scope.md R9). -/
theorem test_refuse_clock : refusal { acc1 with fClk := ⟨0, 1⟩ } = some .clock := by decide

/-! ### Encodings (95 section 3) -/

theorem test_decode_down : decode 0b00#2 = .down := by decide
theorem test_decode_up : decode 0b01#2 = .up := by decide
theorem test_decode_left : decode 0b10#2 = .left := by decide
theorem test_decode_right : decode 0b11#2 = .right := by decide

theorem test_decodeTableWord_of_a_byte : decodeTableWord 8 0b01 = some .up := by decide

theorem test_packRow : packRow true false false true = 9#4 ∧ packRow true true false false = 12#4 := by decide

theorem test_rowCol : rowCol 0b1000#4 0 = true ∧ rowCol 0b1000#4 3 = false := by decide

theorem test_parseProgram :
    parseProgram ["LEFT          # move(true, false)     CMD2 = 0b10", "move(true, true)", "# end", ""] =
      some [.left, .right] := by decide

theorem test_parseProgram_unknown : parseProgram ["LEFT", "STOP"] = none := by decide

/-! ### The reference tables and the write assembly -/

theorem test_tableRow :
    tableRow .ref .fwd 3 = 0b0100#4 ∧ tableRow .ref .fwd 7 = 0b0001#4 ∧
      tableRow .ref .bwd 4 = 0b0100#4 ∧ tableRow .ref .bwd 7 = 0b1001#4 := by decide

theorem test_popcount : popcount (tableRow .ref .fwd 6) = 2 ∧ popcount (tableRow .ref .bwd 2) = 1 := by decide

/-- The eight `SETPIN` codes of an iteration, in order. -/
def codes (i : Instr) (idx : Fin 8) : List SetPinWord :=
  (List.finRange 8).map fun j => encodeSetPin j (writeValue .ref (flag1 i) (flag2 i) idx j)

theorem test_codes_down_0 : codes .down 0 = [1#4, 2#4, 4#4, 7#4, 8#4, 10#4, 12#4, 15#4] := by decide
theorem test_codes_right_3 : codes .right 3 = [0#4, 3#4, 5#4, 6#4, 8#4, 11#4, 12#4, 14#4] := by decide

theorem test_pin_assembly :
    motorOf 0 = .one ∧ colOf 0 = 0 ∧ motorOf 6 = .two ∧ colOf 6 = 2 ∧
      motorOf 3 = .one ∧ colOf 3 = 3 ∧ motorOf 4 = .two ∧ colOf 4 = 0 := by decide

theorem test_heldPattern_left_5 :
    heldPattern .ref true false 5 = #v[true, true, false, false, true, true, false, false] := by decide
theorem test_heldPattern_down_2 :
    heldPattern .ref false false 2 = #v[true, true, false, false, false, false, true, false] := by decide
theorem test_heldPattern_up_7 :
    heldPattern .ref false true 7 = #v[false, false, false, true, false, false, false, true] := by decide
theorem test_heldPattern_right_4 :
    heldPattern .ref true true 4 = #v[false, true, false, false, false, true, true, false] := by decide

/-! ### Timing (95 section 6) -/

/-- The reference configuration with `DELAY_CYCLES = 2`. -/
def twoCycles : Config := ⟨{ refParameters with stepDelay := ⟨2, 1⟩ }, by decide⟩

theorem test_moveEdges : moveEdges .ref = 8073 ∧ moveEdges twoCycles = 89 := by decide

/-- The ceiling: 5/2 microseconds at one cycle per microsecond are three cycles. -/
theorem test_delayCycles_rounds_up :
    delayCycles ⟨{ refParameters with stepDelay := ⟨5, 2⟩ }, by decide⟩ = 3 := by decide

/-! ### One step (95 sections 5.4, 6) -/

/-- A small state: the reset state of the two-cycle configuration at a place inside a move. -/
def stateAt (phase : Phase) (f1 f2 : Bool) (idx sub : Fin 8) (timer : Nat) (pins : Pins) : State :=
  { State.resetOf twoCycles with
    phase := phase, f1 := f1, f2 := f2, idx := idx, sub := sub, timer := timer, pins := pins }

/-- All pins low. -/
def low : Pins := #v[false, false, false, false, false, false, false, false]

/-- Idle after reset. -/
def idleState : State := stateAt .idle false false 0 0 0 low

/-- What a step gives, as far as a test looks: none where it gives no next state. -/
def after {α : Type} (o : Host.Outcome State Fault Refusal) (view : State → α) : Option α :=
  match o with
  | .next t => some (view t)
  | .fault _ => none
  | .refused _ => none

/-- Phase, iteration, write position, and pins. -/
def place (s : State) : Phase × Fin 8 × Fin 8 × Pins := (s.phase, s.idx, s.sub, s.pins)

theorem test_down_accepts :
    after (exec .down idleState) (fun t => (t.trace, place t)) =
      some ([.accept false false], .write, 0, 0, low) := by decide
theorem test_up_accepts :
    after (exec .up idleState) (fun t => (t.trace, place t)) =
      some ([.accept false true], .write, 0, 0, low) := by decide
theorem test_left_accepts :
    after (exec .left idleState) (fun t => (t.trace, place t)) =
      some ([.accept true false], .write, 0, 0, low) := by decide
theorem test_right_accepts :
    after (exec .right idleState) (fun t => (t.trace, place t)) =
      some ([.accept true true], .write, 0, 0, low) := by decide

/-- RIGHT, n = 5: `SETPIN(3,1)`. -/
theorem test_right_write_3 :
    after (exec .right (stateAt .write true true 0 3 0 low)) place =
      some (.write, 0, 4, #v[false, false, false, true, false, false, false, false]) := by decide
/-- DOWN, iteration 3, the last write `7:0`: the delay starts. -/
theorem test_down_write_7 :
    after (exec .down (stateAt .write false false 3 7 0 low)) (fun t => (t.phase, t.timer, t.trace)) =
      some (.delay, 2, [.setPin 7 false]) := by decide
/-- LEFT, iteration 5, the first write: `BWD[5].col(0) = 1`. -/
theorem test_left_write_0 :
    after (exec .left (stateAt .write true false 5 0 0 low)) (fun t => t.trace) = some [.setPin 0 true] := by decide
/-- UP, the end of the eighth delay. -/
theorem test_up_ends :
    after (exec .up (stateAt .delay false true 7 7 0 low)) (fun t => (t.phase, t.idx, t.sub, t.trace)) =
      some (.idle, 7, 7, [.delay, .done]) := by decide

/-- Edge 9 with `DELAY_CYCLES = 2`: the timer goes from 2 to 1. -/
theorem test_step_delay_tick :
    after (step (stateAt .delay true true 0 7 2 low)) (fun t => (t.phase, t.timer)) = some (.delay, 1) := by decide
/-- Edge 11: DELAY-END of iteration 0. -/
theorem test_step_delay_end :
    after (step (stateAt .delay true true 0 7 0 low)) (fun t => (t.phase, t.idx, t.sub, t.trace)) =
      some (.write, 1, 0, [.delay]) := by decide
/-- P6: a reset in the middle of RIGHT, at iteration 2, position 1. -/
theorem test_step_reset :
    after (step { stateAt .write true true 2 1 0 #v[false, false, true, true, true, false, false, false] with
      inputs := [⟨true, true, 0b00#2⟩] }) (fun t => (t.trace, place t)) =
      some ([.reset], .idle, 0, 0, low) := by decide
/-- P6 without a clock: the same reset as an action of its own. -/
theorem test_abstract_reset :
    (abstractStep .reset (stateAt .write true true 2 1 0 #v[false, false, true, true, true, false, false, false])).map
      (fun t => (t.trace, place t)) = some ([.reset], .idle, 0, 0, low) := by decide
/-- No offer in IDLE: nothing happens. -/
theorem test_step_idle : after (step idleState) id = some idleState := by decide
/-- The first step after reset, with a placed word, runs its command, whatever the configuration. -/
theorem test_first_step :
    step (State.reset.withFetchWord 2 0b10) = .next (accept true false State.reset) := rfl

/-- The write monitor at position 3 of RIGHT iteration 0, and none at a reset edge. -/
theorem test_outputs_write :
    (outputs (stateAt .write true true 0 3 0 low)).write = some 0b0111#4 ∧
      (outputs { stateAt .write true true 0 3 0 low with inputs := [⟨true, false, 0#2⟩] }).write = none := by decide
theorem test_outputs_pin :
    (outputs (stateAt .idle true true 7 7 0 (heldPattern .ref true true 7))).pin = 0b10001001#8 := by decide

/-! ### Witnesses: for every statement with hypotheses, a concrete input that meets them together -/

theorem witness_BitsAboveOneAreNotSeen : 2 ≤ 2 ∧ decodeTableWord 2 (0b10 + 4 * 63) = some .left := by decide

/-- A spelling alone, one with a comment, a comment line, an empty line: the premise holds of all four together. -/
theorem witness_ProgramTextIsReadInOrder :
    ∀ p ∈ [("move(0,1)", some Instr.up), ("LEFT # 10", some .left), (" # end", none), ("", none)],
      (∃ q ∈ spellings, p.2 = some q.2 ∧
        (p.1 = q.1 ∨
          ∃ (n : Nat) (text : String), p.1 = q.1 ++ String.ofList (List.replicate n ' ') ++ "#" ++ text)) ∨
      (p.2 = none ∧
        (p.1 = "" ∨
          ∃ (n : Nat) (text : String), p.1 = String.ofList (List.replicate n ' ') ++ "#" ++ text)) := by
  intro p hp
  rcases hp with _ | ⟨_, _ | ⟨_, _ | ⟨_, _ | ⟨_, ⟨⟩⟩⟩⟩⟩
  · exact .inl ⟨("move(0,1)", .up), by decide, rfl, .inl rfl⟩
  · exact .inl ⟨("LEFT", .left), by decide, rfl, .inr ⟨1, " 10", by decide⟩⟩
  · exact .inr ⟨rfl, .inr ⟨1, " end", by decide⟩⟩
  · exact .inr ⟨rfl, .inl rfl⟩

/-- What those lines and one with spaces at its ends read as. -/
theorem witness_ProgramTextIsReadInOrder_text :
    parseProgram ["move(0,1)", "LEFT # 10", " # end", ""] = some [.up, .left] ∧
      parseProgram ["  DOWN "] = some [.down] := by decide

/-- The premise of the clause on distinct identifiers holds of one pin only. -/
theorem witness_ConfigurationsMeetTheirConstraints : pinOf .ref .two 3 = pinOf .ref .two 3 := rfl

/-- Accepted: the reference tables, and small quantities; and rows 7 and 0 meet the premise of adjacency. -/
theorem witness_ConfigureAcceptsExactlyTheAdmissible :
    configure acc1 = .ok .ref ∧ refusal { acc1 with stepDelay := ⟨1, 1000⟩, fClk := ⟨1, 1000⟩ } = none ∧
      acc1.fwd[7]? = some 0b0001#4 ∧ acc1.fwd[(7 + 1) % 8]? = some 0b1001#4 := by decide

theorem witness_FlagsSelectTables :
    busy (stateAt .write true false 0 0 0 low) = true ∧ (sample (stateAt .write true false 0 0 0 low)).rst = false ∧
      ∃ t, step (stateAt .write true false 0 0 0 low) = .next t := ⟨by decide, by decide, _, rfl⟩

theorem witness_RowParityAlternates :
    tableRow .ref .fwd 7 = tableRow .ref .bwd 0 ∧ tableRow .ref .fwd 0 = tableRow .ref .bwd 7 := by decide

theorem witness_TablesNeverChange :
    edges 1 idleState = .next idleState ∧ exec .up idleState = .next (accept false true idleState) ∧
      microStep (some .up) ⟨0, 1⟩ idleState = some (accept false true idleState) := ⟨rfl, rfl, rfl⟩

theorem witness_AcceptLatchesTheCommand_offer :
    idleState.phase = .idle ∧ sample { idleState with inputs := [⟨false, true, 0b10#2⟩] } = ⟨false, true, 0b10#2⟩ := by
  decide
theorem witness_AcceptLatchesTheCommand_busy :
    (stateAt .write true false 0 0 0 low).phase ≠ .idle ∧
      (⟨false, true, 0b01#2⟩ : Inputs).rst = (⟨false, false, 0b00#2⟩ : Inputs).rst := by decide

/-- The first and the fourth, the fifth and the eighth write: both sides of the two bounds. -/
theorem witness_WriteWritesExactlyOnePin :
    ∀ sub ∈ [(0 : Fin 8), 3, 4, 6, 7],
      (stateAt .write true true 7 sub 0 low).phase = .write ∧
        (sample (stateAt .write true true 7 sub 0 low)).rst = false := by decide

/-- One microsecond too early and exactly at `STEP_DELAY`, after iterations 6 and 7, with the timer run out. -/
theorem witness_DelayEndMovesOn :
    ∀ idx ∈ [(6 : Fin 8), 7],
      (stateAt .delay true true idx 7 0 low).phase = .delay ∧ (stateAt .delay true true idx 7 0 low).timer = 0 ∧
        (sample (stateAt .delay true true idx 7 0 low)).rst = false ∧
        (stateAt .delay true true idx 7 0 low).config.params.stepDelay.le ⟨1, 1⟩ = false ∧
        (stateAt .delay true true idx 7 0 low).config.params.stepDelay.le ⟨2, 1⟩ = true := by decide

/-- The clause on the next ACCEPT: a machine idle after a move. -/
theorem witness_DelayEndMovesOn_idle : (stateAt .idle true true 7 7 0 low).phase = .idle := rfl

theorem witness_MicroStepEnabledExactly :
    (microStep (some .up) ⟨0, 1⟩ idleState).isSome = true ∧
      (microStep none ⟨0, 1⟩ (stateAt .write true true 0 0 0 low)).isSome = true ∧
      (microStep none ⟨2, 1⟩ (stateAt .delay true true 0 7 2 low)).isSome = true := by decide

theorem witness_DelayLastsDelayCyclesPlusOne :
    (stateAt .delay true true 0 7 2 low).phase = .delay ∧
      (stateAt .delay true true 0 7 2 low).timer = delayCycles (stateAt .delay true true 0 7 2 low).config ∧
      noReset 3 (stateAt .delay true true 0 7 2 low) := by decide

theorem witness_StepRunsTheDecodedCommand_idle :
    ({ idleState with inputs := [⟨false, true, 0b11#2⟩] } : State).phase = .idle ∧
      sample { idleState with inputs := [⟨false, true, 0b11#2⟩] } = ⟨false, true, 0b11#2⟩ := by decide
theorem witness_StepRunsTheDecodedCommand_busy :
    (stateAt .delay true true 7 7 0 low).phase ≠ .idle ∧ (sample (stateAt .delay true true 7 7 0 low)).rst = false ∧
      decodeTableWord 2 3 = some .right := by decide

/-- The premise of the four statements about whole moves. -/
theorem witness_commandRuns : idleState.phase = .idle := rfl

/-- The frame's premises: an accepting edge, a write of the first and of the last position, and a running and an ended
delay, each with a next state. -/
theorem witness_CommandFrame :
    (∃ t, exec .up idleState = .next t) ∧
      (∃ t, exec .up (stateAt .write false true 0 0 0 low) = .next t) ∧
      (∃ t, exec .up (stateAt .write false true 7 7 0 low) = .next t) ∧
      (∃ t, exec .up (stateAt .delay false true 3 7 2 low) = .next t) ∧
      (∃ t, exec .up (stateAt .delay false true 7 7 0 low) = .next t) ∧
      logicalOf twoCycles (pinOf twoCycles .two 3) = some 7 ∧ (6 : Fin 8) ≠ 7 :=
  ⟨⟨_, rfl⟩, ⟨_, rfl⟩, ⟨_, rfl⟩, ⟨_, rfl⟩, ⟨_, rfl⟩, by decide, by decide⟩

theorem witness_ResetFromAnyState :
    (sample { stateAt .write true true 2 1 0 low with inputs := [⟨true, true, 0b01#2⟩] }).rst = true := by decide

/-- The eighth delay ends while UP is offered, and UP is still offered at the next edge. -/
theorem witness_ResetThenMicroStepThenOffer :
    ∃ s : State, s.phase = .delay ∧ s.timer = 0 ∧ s.idx = 7 ∧
      s.inputs = ⟨false, true, 0b01#2⟩ :: ⟨false, true, 0b01#2⟩ :: [] :=
  ⟨{ stateAt .delay true true 7 7 0 low with inputs := [⟨false, true, 0b01#2⟩, ⟨false, true, 0b01#2⟩] }, by decide⟩

/-- A reset in mid-move, then a quiet edge, then one with an offer. -/
theorem witness_ResetAbortsTheMove :
    ∀ b ∈ [Inputs.quiet, ⟨false, true, 0b00#2⟩], ∃ s : State,
      busy s = true ∧ b.rst = false ∧ s.inputs = ⟨true, false, 0#2⟩ :: b :: [] := by
  intro b hb
  refine ⟨{ stateAt .write true true 2 1 0 low with inputs := [⟨true, false, 0#2⟩, b] }, rfl, ?_, rfl⟩
  revert b
  decide

/-- The last edge of a move, without a reset: busy before it and not after it. -/
theorem witness_ResetAbortsTheMove_end :
    busy (stateAt .delay true true 7 7 0 low) = true ∧ (sample (stateAt .delay true true 7 7 0 low)).rst = false ∧
      ∃ t, step (stateAt .delay true true 7 7 0 low) = .next t ∧ busy t = false := ⟨by decide, by decide, _, rfl, rfl⟩

theorem witness_ApplyWritesTheFourPins : Motor.two ≠ Motor.one := by decide

theorem witness_PinsChangeOnlyWhereMonitored_write :
    (∃ t, step (stateAt .write true true 0 7 0 low) = .next t) ∧
      (sample (stateAt .write true true 0 7 0 low)).rst = false ∧
      (outputs (stateAt .write true true 0 7 0 low)).write = some 0b1111#4 := ⟨⟨_, rfl⟩, by decide, by decide⟩
theorem witness_PinsChangeOnlyWhereMonitored_none :
    (∃ t, step (stateAt .delay true true 7 7 0 low) = .next t) ∧
      (sample (stateAt .delay true true 7 7 0 low)).rst = false ∧
      (outputs (stateAt .delay true true 7 7 0 low)).write = none := ⟨⟨_, rfl⟩, by decide, by decide⟩

theorem witness_MicroStepsMakeTheMove :
    idleState.phase = .idle ∧ (List.replicate 72 (some Instr.up, (⟨2, 1⟩ : Quantity))).length = 72 ∧
      ∀ p ∈ List.replicate 72 (some Instr.up, (⟨2, 1⟩ : Quantity)),
        idleState.config.params.stepDelay.le p.2 = true := by decide
theorem witness_MicroStepsMakeTheMove_quiet :
    quietFor 2 { idleState with inputs := [.quiet, .quiet, ⟨false, true, 0b01#2⟩] } := by decide

/-- LEFT is offered and UP afterwards. -/
theorem witness_ClockedMoveTakesMoveEdges :
    ∃ s : State, s.phase = .idle ∧ offered (sample s) = some .left ∧ noReset (moveEdges s.config) s :=
  ⟨{ idleState with inputs := [⟨false, true, 0b10#2⟩, ⟨false, true, 0b01#2⟩] }, by decide⟩

/-- The order that runs from pin 7 down. -/
theorem witness_HeldPatternsInAnyWriteOrder : ∀ j : Fin 8, j ∈ (List.finRange 8).reverse := by decide
theorem witness_HeldPatternsInAnyWriteOrder_delay :
    pinsOk (stateAt .delay true false 5 7 2 (heldPattern twoCycles true false 5)) ∧
      (stateAt .delay true false 5 7 2 (heldPattern twoCycles true false 5)).phase = .delay := by decide

/-- Before the first and before the last write of an iteration. -/
theorem witness_MotorsShowRowsBetweenWrites :
    pinsOk (stateAt .write true true 1 0 0 (heldPattern twoCycles true true 0)) ∧
      pinsOk (stateAt .write true true 7 7 0
        #v[true, false, false, true, false, false, false, true]) := by decide

/-- After DOWN, the machine idle at row 7; UP leaves motor 1 on `FWD`. -/
theorem witness_SameTableContinuesByOneColumn :
    idleOk (stateAt .idle false false 7 7 0 (heldPattern twoCycles false false 7)) ∧
      (stateAt .idle false false 7 7 0 (heldPattern twoCycles false false 7)).phase = .idle ∧
      (stateAt .idle false false 7 7 0 (heldPattern twoCycles false false 7)).idx = 7 ∧
      selFor false false .one = selFor (flag1 .up) (flag2 .up) .one := by decide

theorem witness_PinsAreNeverRead : ∃ t, edges 1 (stateAt .write true true 0 0 0 low) = .next t := ⟨_, rfl⟩

/-- At the start of a move and at its last edge. -/
theorem witness_EveryMoveEnds :
    ∀ s ∈ [stateAt .write true true 0 0 0 low, stateAt .delay true true 7 7 0 low],
      controlOk s ∧ busy s = true ∧ noReset (moveEdges s.config) s := by decide

/-- UP held stable from a busy state on. -/
theorem witness_HeldOfferIsAccepted :
    ∃ s : State, controlOk s ∧ busy s = true ∧ offersHeld 0b01#2 (moveEdges s.config + 1) s := by
  refine ⟨{ stateAt .write true false 0 0 0 low with inputs := List.replicate 90 ⟨false, true, 0b01#2⟩ }, ?_, rfl, ?_⟩
  · decide
  · intro k hk
    have h : k < 90 := hk
    rw [List.getElem?_replicate, if_pos h]

theorem witness_EveryStepKeepsTheInvariant :
    Inv idleState ∧ ∃ t, step idleState = .next t := ⟨by decide, _, rfl⟩
/-- The invariant inside a move: RIGHT accepted from reset, nothing written yet. -/
theorem witness_Inv_busy : Inv (accept true true idleState) := by decide
theorem witness_EveryMicroStepKeepsTheInvariant :
    AbstractInv idleState ∧ ∃ t, microStep (some .left) ⟨0, 1⟩ idleState = some t := ⟨by decide, _, rfl⟩

/-- Each of the three cases of the refinement: a reset, a micro-step, a quiet idle edge. -/
theorem witness_ClockRefinesMicroSteps :
    (sample { idleState with inputs := [⟨true, false, 0#2⟩] }).rst = true ∧
      (∃ t, step (stateAt .write true true 0 0 0 low) = .next t) ∧ step idleState = .next idleState :=
  ⟨by decide, ⟨_, rfl⟩, rfl⟩

/-- A run before the reset, with a next state: ACCEPT of RIGHT. -/
theorem witness_ResetMayInterleaveAnywhere :
    ∃ t, abstractRun [.micro (some .right) ⟨0, 1⟩] idleState = some t := ⟨_, rfl⟩
/-- Two enabled micro-steps of one state, with different offers and times. -/
theorem witness_ResetMayInterleaveAnywhere_unique :
    (∃ t, abstractStep (.micro none ⟨2, 1⟩) (stateAt .delay true true 7 7 2 low) = some t) ∧
      (∃ t, abstractStep (.micro (some .up) ⟨3, 1⟩) (stateAt .delay true true 7 7 2 low) = some t) ∧
      (stateAt .delay true true 7 7 2 low).phase ≠ .idle := ⟨⟨_, rfl⟩, ⟨_, rfl⟩, by decide⟩
/-- A reset in mid-move. -/
theorem witness_AbstractRunsKeepTheInvariant :
    AbstractInv idleState ∧ ∃ t, abstractRun [.micro (some .left) ⟨0, 1⟩, .reset] idleState = some t :=
  ⟨by decide, _, rfl⟩
/-- One edge, with a reset in mid-move. -/
theorem witness_ClockedRunsAreAbstractRuns :
    ∃ t, edges 1 { stateAt .write true true 2 1 0 low with inputs := [⟨true, false, 0#2⟩] } = .next t := ⟨_, rfl⟩

/-- The whole trace of one move. -/
theorem witness_LegalTracesCount :
    progressFrom .ref .idle ([.accept false false] ++ moveEvents .ref false false ++ [.done]) = some .idle ∧
      Event.reset ∉ [Event.accept false false] ++ moveEvents .ref false false ++ [.done] := by decide

end Sys2Proof.Tests
end

