-- ==== Sys2Proof/Proofs/Configure.lean ====
section
/-! SUPPORT. Configuration time (20_memory.md R26, 60_exceptions.md R70): which offered configurations are accepted, and
as what. -/

namespace Sys2Proof.Machine

/-- The offered configuration that lists the contents of typed parameters. -/
def rawOf (p : Parameters) : RawConfig where
  fwd := p.fwd.toList
  bwd := p.bwd.toList
  m1Pins := p.m1Pins.toList
  m2Pins := p.m2Pins.toList
  stepDelay := p.stepDelay
  fClk := p.fClk
  pinReset := p.pinReset.toList

theorem eq_rawOf_iff (r : RawConfig) (p : Parameters) :
    r = rawOf p ↔
      r.fwd = p.fwd.toList ∧ r.bwd = p.bwd.toList ∧ r.m1Pins = p.m1Pins.toList ∧ r.m2Pins = p.m2Pins.toList ∧
        r.stepDelay = p.stepDelay ∧ r.fClk = p.fClk ∧ r.pinReset = p.pinReset.toList := by
  cases r
  rw [rawOf, RawConfig.mk.injEq]

/-! ### The shape checks -/

@[simp] theorem sized_toList {α : Type} {n : Nat} (v : Vector α n) : sized n v.toList = some v :=
  (sized_eq_some_iff _ v).2 rfl

/-- The contents of typed parameters pass the shape checks unchanged. -/
theorem typed_rawOf (p : Parameters) : (rawOf p).typed = .ok p := by
  simp only [RawConfig.typed, rawOf, sized_toList]

/-- What passes the shape checks is the contents of the parameters answered. -/
theorem eq_rawOf_of_typed {r : RawConfig} {p : Parameters} (h : r.typed = .ok p) : r = rawOf p := by
  unfold RawConfig.typed at h
  split at h
  · next hfwd hbwd =>
    split at h
    · next hm1 hm2 =>
      split at h
      · next hreset =>
        rw [sized_eq_some_iff] at hfwd hbwd hm1 hm2 hreset
        cases h
        exact (eq_rawOf_iff _ _).2 ⟨hfwd, hbwd, hm1, hm2, rfl, rfl, hreset⟩
      · cases h
    · cases h
  · cases h

theorem typed_eq_ok_iff (r : RawConfig) (p : Parameters) : r.typed = .ok p ↔ r = rawOf p :=
  ⟨eq_rawOf_of_typed, fun h => h ▸ typed_rawOf p⟩

/-- The shape constraints R37, R11 and R9, on the offered lists. -/
def wellShaped (r : RawConfig) : Prop :=
  r.fwd.length = 8 ∧ r.bwd.length = 8 ∧ r.m1Pins.length = 4 ∧ r.m2Pins.length = 4 ∧ r.pinReset.length = 8

theorem wellShaped_rawOf (p : Parameters) : wellShaped (rawOf p) := by
  simp [wellShaped, rawOf]

/-- A list of length `n` is the list of a container of size `n`. -/
theorem exists_vector_of_length {α : Type} {n : Nat} {l : List α} (h : l.length = n) :
    ∃ v : Vector α n, l = v.toList :=
  ⟨⟨l.toArray, by simpa using h⟩, rfl⟩

theorem exists_eq_rawOf_of_wellShaped {r : RawConfig} (h : wellShaped r) : ∃ p, r = rawOf p := by
  obtain ⟨hfwd, hbwd, hm1, hm2, hreset⟩ := h
  obtain ⟨fwd, hfwd⟩ := exists_vector_of_length hfwd
  obtain ⟨bwd, hbwd⟩ := exists_vector_of_length hbwd
  obtain ⟨m1, hm1⟩ := exists_vector_of_length hm1
  obtain ⟨m2, hm2⟩ := exists_vector_of_length hm2
  obtain ⟨reset, hreset⟩ := exists_vector_of_length hreset
  exact ⟨⟨fwd, bwd, m1, m2, r.stepDelay, r.fClk, reset⟩,
    (eq_rawOf_iff _ _).2 ⟨hfwd, hbwd, hm1, hm2, rfl, rfl, hreset⟩⟩

/-! ### Acceptance -/

theorem ofParameters_eq_ok_iff (p : Parameters) (c : Config) :
    Config.ofParameters p = .ok c ↔ p = c.params := by
  obtain ⟨q, hq⟩ := c
  unfold Config.ofParameters
  split
  · next e he => exact iff_of_false nofun (by rintro rfl; simp [hq] at he)
  · next hp => simp

/-- An offered configuration is accepted as the configuration whose contents it lists. -/
theorem configure_eq_ok_iff (r : RawConfig) (c : Config) : configure r = .ok c ↔ r = rawOf c.params := by
  rw [← typed_eq_ok_iff]
  unfold configure
  split
  · next e he => simp [he]
  · next p hp => rw [ofParameters_eq_ok_iff, hp, Except.ok.injEq]

/-! ### The constraints on the contents -/

/-- Rows `i` and `(i+1) mod 8` of a listed table differ in exactly one column, for every `i` (40_step_table.md R39). -/
def rowsAdjacent (T : List Row) : Prop :=
  ∀ i < 8, ∀ a b : Row, T[i]? = some a → T[(i + 1) % 8]? = some b →
    ∃ k : Fin 4, ∀ k' : Fin 4, a.getLsbD k' ≠ b.getLsbD k' ↔ k' = k

theorem toList_getElem?_eq_some_iff (t : Table) (i : Fin 8) (a : Row) : t.toList[i.val]? = some a ↔ t[i] = a := by
  simp

theorem adjacent_iff_rowsAdjacent (t : Table) : adjacent t = true ↔ rowsAdjacent t.toList := by
  have hnext (i : Fin 8) : (i.val + 1) % 8 = (i + 1).val := (Fin.val_add i 1).symm
  simp only [adjacent, List.all_eq_true, beq_iff_eq, popcount_xor_eq_one_iff]
  constructor
  · intro h n hn a b ha hb
    obtain rfl := (toList_getElem?_eq_some_iff t ⟨n, hn⟩ a).1 ha
    obtain rfl := (toList_getElem?_eq_some_iff t (⟨n, hn⟩ + 1) b).1 (hnext ⟨n, hn⟩ ▸ hb)
    exact h ⟨n, hn⟩ (List.mem_finRange _)
  · intro h i _
    exact h i i.isLt _ _ ((toList_getElem?_eq_some_iff t i _).2 rfl)
      (hnext i ▸ (toList_getElem?_eq_some_iff t (i + 1) _).2 rfl)

/-- The constraints R38, R39, R26 and R9 on the contents of an offered configuration. -/
def contentsAdmissible (r : RawConfig) : Prop :=
  (r.fwd[0]? = some 0b1001#4 ∧ r.bwd[0]? = some 0b0001#4) ∧
    (∀ T ∈ [r.fwd, r.bwd], rowsAdjacent T) ∧
    (r.m1Pins ++ r.m2Pins).Nodup ∧
    (0 < r.stepDelay.num ∧ 0 < r.stepDelay.den) ∧ 0 < r.fClk.num ∧ 0 < r.fClk.den

theorem positive_iff (q : Quantity) : q.positive = true ↔ 0 < q.num ∧ 0 < q.den := by
  simp [Quantity.positive]

theorem pinsDistinct_iff (m1 m2 : Vector PinId 4) :
    pinsDistinct m1 m2 = true ↔ (m1.toList ++ m2.toList).Nodup := by
  simp [pinsDistinct]

/-- Typed parameters break no constraint exactly where their listed contents meet each one. -/
theorem problem_eq_none_iff_contentsAdmissible (p : Parameters) :
    p.problem = none ↔ contentsAdmissible (rawOf p) := by
  have hrow0 (t : Table) (a : Row) : t.toList[0]? = some a ↔ t[0] = a := toList_getElem?_eq_some_iff t 0 a
  simp only [problem_eq_none_iff, contentsAdmissible, rawOf, hrow0, fwdRow0, bwdRow0, List.forall_mem_cons,
    List.not_mem_nil, false_imp_iff, implies_true, and_true, adjacent_iff_rowsAdjacent, pinsDistinct_iff,
    positive_iff]

/-- An offered configuration is accepted exactly where its shape and its contents meet the constraints. -/
theorem exists_configure_eq_ok_iff (r : RawConfig) :
    (∃ c, configure r = .ok c) ↔ wellShaped r ∧ contentsAdmissible r := by
  constructor
  · rintro ⟨c, hc⟩
    obtain rfl := (configure_eq_ok_iff r c).1 hc
    exact ⟨wellShaped_rawOf c.params, (problem_eq_none_iff_contentsAdmissible c.params).1 c.admissible⟩
  · rintro ⟨hshape, hcontents⟩
    obtain ⟨p, rfl⟩ := exists_eq_rawOf_of_wellShaped hshape
    exact ⟨⟨p, (problem_eq_none_iff_contentsAdmissible p).2 hcontents⟩, (configure_eq_ok_iff _ _).2 rfl⟩

/-- Settles O9: `configure` answers `c` exactly for the listed contents of `c`, and lists are the contents of some
configuration exactly where they have the right lengths and meet the constraints. -/
theorem configureAcceptsExactlyTheAdmissible : Obligations.ConfigureAcceptsExactlyTheAdmissible := fun r =>
  ⟨exists_configure_eq_ok_iff r, fun c => (configure_eq_ok_iff r c).trans (eq_rawOf_iff r c.params)⟩

end Sys2Proof.Machine
end

