-- ==== Sys2Proof/Proofs/PinsUnread.lean ====
section
/-! SUPPORT. The pins are an output only (10_state.md R16, 41_move.md R61): no operation reads them.  For every
operation, what it does from other pins differs from what it does at most in the pins; run by run, this is
noninterference. -/

namespace Sys2Proof.Machine

variable (s : State) (p : Pins) (f1 f2 : Bool)

theorem sample_withPins : sample { s with pins := p } = sample s := rfl

theorem current_withPins : current { s with pins := p } = current s := rfl

theorem consume_withPins : consume { s with pins := p } = { consume s with pins := p } := rfl

theorem applyReset_withPins : applyReset { s with pins := p } = applyReset s := rfl

theorem accept_withPins : accept f1 f2 { s with pins := p } = { accept f1 f2 s with pins := p } := rfl

theorem delayTick_withPins : delayTick { s with pins := p } = { delayTick s with pins := p } := rfl

theorem delayEnd_withPins : delayEnd { s with pins := p } = { delayEnd s with pins := p } := by
  by_cases h : s.idx = 7
  · rw [delayEnd_of_eq s h, delayEnd_of_eq { s with pins := p } h]
  · rw [delayEnd_of_ne s h, delayEnd_of_ne { s with pins := p } h]

/-- WRITE sets the same output to the same level, whatever the levels before it. -/
theorem writePin_withPins :
    writePin { s with pins := p } =
      { writePin s with pins := p.set s.sub (writeValue s.config s.f1 s.f2 s.idx s.sub) } := by
  by_cases h : s.sub = 7
  · rw [writePin_of_eq s h, writePin_of_eq { s with pins := p } h]
  · rw [writePin_of_ne s h, writePin_of_ne { s with pins := p } h]

/-! ### One clock edge of a command, by the phase (41_move.md R52) -/

theorem moveEdge_of_idle (hp : s.phase = .idle) : moveEdge f1 f2 s = accept f1 f2 s := by
  rw [moveEdge, hp]

theorem moveEdge_of_write (hp : s.phase = .write) : moveEdge f1 f2 s = writePin s := by
  rw [moveEdge, hp]

theorem moveEdge_of_delay (hp : s.phase = .delay) :
    moveEdge f1 f2 s = if s.timer = 0 then delayEnd s else delayTick s := by
  rw [moveEdge, hp]

theorem moveEdge_withPins :
    ∃ q : Pins, moveEdge f1 f2 { s with pins := p } = { moveEdge f1 f2 s with pins := q } := by
  rcases moveEdge_cases s f1 f2 with ⟨hp, he⟩ | ⟨hp, he⟩ | ⟨hp, ht, he⟩ | ⟨hp, ht, he⟩ <;> rw [he]
  · exact ⟨p, by rw [moveEdge_of_idle { s with pins := p } f1 f2 hp, accept_withPins]⟩
  · exact ⟨_, by rw [moveEdge_of_write { s with pins := p } f1 f2 hp, writePin_withPins]⟩
  · exact ⟨p, by rw [moveEdge_of_delay { s with pins := p } f1 f2 hp, if_pos ht, delayEnd_withPins]⟩
  · exact ⟨p, by rw [moveEdge_of_delay { s with pins := p } f1 f2 hp, if_neg ht, delayTick_withPins]⟩

/-! ### One clock edge, by what is sampled at it (60_exceptions.md R72) -/

theorem step_of_rst (hr : (sample s).rst = true) : step s = .next (applyReset (consume s)) := by
  rw [step, if_pos hr]

theorem step_of_current_none (hr : (sample s).rst ≠ true) (hc : current s = none) :
    step s = .next (consume s) := by
  rw [step, if_neg hr, hc]

theorem step_of_current_some {i : Instr} (hr : (sample s).rst ≠ true) (hc : current s = some i) :
    step s = .next (moveEdge (flag1 i) (flag2 i) (consume s)) := by
  simp only [step, if_neg hr, hc, exec_eq]

/-- The case of the clock edge is the same from other pins, since neither the ports nor the command depend on them. -/
theorem step_withPins {s t : State} (h : step s = .next t) :
    ∃ q : Pins, step { s with pins := p } = .next { t with pins := q } := by
  have hs := sample_withPins s p
  have hc := current_withPins s p
  by_cases hr : (sample s).rst = true
  · cases (step_of_rst s hr).symm.trans h
    exact ⟨_, by rw [step_of_rst _ (hs ▸ hr), consume_withPins, applyReset_withPins]⟩
  · cases hcs : current s with
    | none =>
      cases (step_of_current_none s hr hcs).symm.trans h
      exact ⟨p, by rw [step_of_current_none _ (hs ▸ hr) (hc.trans hcs), consume_withPins]⟩
    | some i =>
      cases (step_of_current_some s hr hcs).symm.trans h
      obtain ⟨q, hq⟩ := moveEdge_withPins (consume s) p (flag1 i) (flag2 i)
      exact ⟨q, by rw [step_of_current_some _ (hs ▸ hr) (hc.trans hcs), consume_withPins, hq]⟩

end Sys2Proof.Machine

namespace Sys2Proof.Safety

open Sys2Proof.Machine

/-- A run that goes on for one more edge takes that edge first, in any machine behind the host's interface. -/
theorem exists_step_of_run_succ {M : Host.Core} {n : Nat} {s t : M.State} (h : M.run (n + 1) s = .next t) :
    ∃ u, M.step s = .next u ∧ M.run n u = .next t := by
  unfold Host.Core.run at h
  split at h
  · exact ⟨_, ‹_›, h⟩
  · cases h
  · cases h

/-- Settles O35, by induction on the number of edges, over all pins: the first edge leaves states that differ at most
in the pins. -/
theorem pinsAreNeverRead : Obligations.PinsAreNeverRead := by
  intro n
  induction n with
  | zero =>
    intro s t p h
    cases h
    exact ⟨p, rfl⟩
  | succ n ih =>
    intro s t p h
    obtain ⟨u, hstep, hrun⟩ := exists_step_of_run_succ h
    obtain ⟨p', hstep'⟩ := step_withPins p hstep
    rw [edges_succ n _ _ hstep']
    exact ih u t p' hrun

end Sys2Proof.Safety
end

