-- ==== Sys2Proof/Proofs/Encoding.lean ====
section
/-! SUPPORT. The three encodings `CMD2`, `ROW4` and `SETPIN` (30_encoding.md R28 to R31, R34): the fields of an encoded
word, and that decoding and encoding are inverse to each other. -/

namespace Sys2Proof

/-! ### The command word -/

/-- Every command meets its row of the command table. -/
theorem commandWord_statement (i : Instr) : Laws.CommandWord.Statement i := by
  cases i
  case down => exact Laws.CommandWord.down
  case up => exact Laws.CommandWord.up
  case left => exact Laws.CommandWord.left
  case right => exact Laws.CommandWord.right

@[simp] theorem flag1_decode (w : Cmd2) : flag1 (decode w) = w.getLsbD 1 := Machine.flag1_ofFlags _ _

@[simp] theorem flag2_decode (w : Cmd2) : flag2 (decode w) = w.getLsbD 0 := Machine.flag2_ofFlags _ _

theorem decode_encode (i : Instr) : decode (encode i) = i := by
  obtain ⟨-, hbit1, hbit0, hflags⟩ := commandWord_statement i
  rw [decode, hbit1, hbit0, hflags]

theorem encode_decode (w : Cmd2) : encode (decode w) = w := by
  obtain ⟨-, hbit1, hbit0, -⟩ := commandWord_statement (decode w)
  refine BitVec.eq_of_getLsbD_eq fun k hk => ?_
  obtain rfl | rfl : k = 0 ∨ k = 1 := by omega
  · rw [hbit0, flag2_decode]
  · rw [hbit1, flag1_decode]

/-- Settles O1: the four words by evaluation, the rest by the flags of a decoded and of an encoded word. -/
theorem commandWordsDecode : Obligations.CommandWordsDecode :=
  ⟨⟨rfl, rfl, rfl, rfl⟩, fun w => ⟨flag1_decode w, flag2_decode w⟩, decode_encode, encode_decode⟩

/-- The carrier's width does not matter from 2 bits on, since `4` divides `2 ^ nbits`. -/
theorem commandBits_eq_ofNat {nbits : Nat} (h : 2 ≤ nbits) (w : Nat) : commandBits nbits w = BitVec.ofNat 2 w := by
  apply BitVec.eq_of_toNat_eq
  simp only [commandBits, BitVec.toNat_ofNat]
  exact Nat.mod_mod_of_dvd w (Nat.pow_dvd_pow 2 h)

theorem decodeTableWord_eq {nbits : Nat} (h : 2 ≤ nbits) (w : Nat) :
    decodeTableWord nbits w = some (decode (BitVec.ofNat 2 w)) := by
  rw [decodeTableWord, commandBits_eq_ofNat h]

theorem ofNat_two_add_four_mul (w high : Nat) : BitVec.ofNat 2 (w + 4 * high) = BitVec.ofNat 2 w := by
  apply BitVec.eq_of_toNat_eq
  simp only [BitVec.toNat_ofNat]
  omega

/-- Settles O2: the decoder reads the value modulo 4. -/
theorem bitsAboveOneAreNotSeen : Obligations.BitsAboveOneAreNotSeen := fun _ w h =>
  ⟨decodeTableWord_eq h w, fun high => by
    rw [decodeTableWord_eq h, decodeTableWord_eq h, ofNat_two_add_four_mul]⟩

/-! ### The pin-write word -/

theorem encodeSetPin_pinField (j : Fin 8) (v : Bool) : (encodeSetPin j v).extractLsb' 1 3 = BitVec.ofFin j :=
  BitVec.extractLsb'_append_eq_left

theorem encodeSetPin_valueBit (j : Fin 8) (v : Bool) : (encodeSetPin j v).getLsbD 0 = v := by
  rw [encodeSetPin, BitVec.getLsbD_append]
  simp

theorem encodeSetPin_pinBit (j : Fin 8) (v : Bool) (k : Nat) :
    (encodeSetPin j v).getLsbD (k + 1) = (BitVec.ofFin (w := 3) j).getLsbD k := by
  rw [encodeSetPin, BitVec.getLsbD_append]
  simp

theorem decodeSetPin_encodeSetPin (j : Fin 8) (v : Bool) : decodeSetPin (encodeSetPin j v) = (j, v) := by
  rw [decodeSetPin, encodeSetPin_pinField, encodeSetPin_valueBit]

/-- Bit 0 is the value; bits 1 to 3 are bits 0 to 2 of the pin. -/
theorem encodeSetPin_decodeSetPin (w : SetPinWord) : encodeSetPin (decodeSetPin w).1 (decodeSetPin w).2 = w := by
  refine BitVec.eq_of_getLsbD_eq fun k hk => ?_
  cases k with
  | zero => exact encodeSetPin_valueBit _ _
  | succ k =>
    have hk3 : k < 3 := by omega
    calc (encodeSetPin (decodeSetPin w).1 (decodeSetPin w).2).getLsbD (k + 1)
        = (w.extractLsb' 1 3).getLsbD k := encodeSetPin_pinBit _ _ k
      _ = w.getLsbD (k + 1) := by rw [BitVec.getLsbD_extractLsb', decide_eq_true hk3, Bool.true_and, Nat.add_comm]

/-- The motor of logical pin `j` is number `1 + (j >> 2)` (30_encoding.md R30). -/
theorem motorOf_eq_iff_shift (j : Fin 8) :
    (Machine.motorOf j = .one ↔ 1 + (j.val >>> 2) = 1) ∧ (Machine.motorOf j = .two ↔ 1 + (j.val >>> 2) = 2) := by
  decide +revert

/-- The identifier at logical pin `j` names `j` (20_memory.md R26). -/
theorem logicalOf_pinOf_motorOf_colOf (c : Config) (j : Fin 8) :
    Machine.logicalOf c (Machine.pinOf c (Machine.motorOf j) (Machine.colOf j)) = some j := by
  rw [Machine.logicalOf_pinOf, Machine.logicalPin_motorOf_colOf]

/-- Settles O3: by the two fields of an encoded write and by the distinct identifiers of every configuration. -/
theorem setPinWordNamesPinAndValue : Obligations.SetPinWordNamesPinAndValue :=
  ⟨fun j v => ⟨encodeSetPin_pinField j v, encodeSetPin_valueBit j v, decodeSetPin_encodeSetPin j v⟩,
    encodeSetPin_decodeSetPin, fun c j =>
      ⟨(motorOf_eq_iff_shift j).1, (motorOf_eq_iff_shift j).2, rfl, logicalOf_pinOf_motorOf_colOf c j⟩⟩

/-! ### The row word -/

/-- The columns of a packed tuple are the tuple, in order. -/
theorem rowCol_packRow (c0 c1 c2 c3 : Bool) :
    rowCol (packRow c0 c1 c2 c3) 0 = c0 ∧ rowCol (packRow c0 c1 c2 c3) 1 = c1 ∧
      rowCol (packRow c0 c1 c2 c3) 2 = c2 ∧ rowCol (packRow c0 c1 c2 c3) 3 = c3 := by
  decide +revert

/-- Rows with the same four columns are equal. -/
theorem row_eq_of_rowCol_eq {r t : Row} (h : ∀ k, rowCol r k = rowCol t k) : r = t := by
  refine BitVec.eq_of_getLsbD_eq fun b hb => ?_
  have hcol := h ⟨3 - b, by omega⟩
  have hb3 : 3 - (3 - b) = b := by omega
  simpa [rowCol, hb3] using hcol

theorem packRow_rowCol (r : Row) : packRow (rowCol r 0) (rowCol r 1) (rowCol r 2) (rowCol r 3) = r := by
  obtain ⟨h0, h1, h2, h3⟩ := rowCol_packRow (rowCol r 0) (rowCol r 1) (rowCol r 2) (rowCol r 3)
  exact row_eq_of_rowCol_eq (Fin.forall_fin_succ.2 ⟨h0, Fin.forall_fin_succ.2 ⟨h1, Fin.forall_fin_two.2 ⟨h2, h3⟩⟩⟩)

/-- Settles O4: packing and the four columns are inverse to each other. -/
theorem rowColumnsFromTheHighBit : Obligations.RowColumnsFromTheHighBit :=
  ⟨rowCol_packRow, packRow_rowCol, fun _ _ => rfl, rfl⟩

end Sys2Proof
end

