-- ==== Sys2Proof/Proofs/ProgramText.lean ====
section
/-! SUPPORT. Reading a program (30_encoding.md R36; log 18): what one line adds to it, which text spells which command,
and what a comment and spaces change of a line's text, which is nothing. -/

namespace Sys2Proof

/-- What is left of a line when its comment and the spaces at its ends are dropped. -/
def lineText (line : String) : List Char := trimSpaces (dropComment line.toList)

/-! ### One line of a program -/

/-- No line without text is a spelling. -/
theorem spelledCommand_nil : spelledCommand [] = none := by decide

/-- A line without text is no command. -/
theorem parseProgram_cons_of_blank {line : String} (h : lineText line = []) (rest : List String) :
    parseProgram (line :: rest) = parseProgram rest :=
  if_pos (List.isEmpty_iff.2 h)

/-- A line with text is the command that its text spells, before the commands of the lines below it. -/
theorem parseProgram_cons_of_text {line : String} (h : lineText line ≠ []) (rest : List String) :
    parseProgram (line :: rest) =
      (spelledCommand (lineText line)).bind fun i => (parseProgram rest).map (i :: ·) := by
  have hempty : (trimSpaces (dropComment line.toList)).isEmpty = false := by simpa [lineText] using h
  rw [parseProgram, lineText]
  simp only [hempty]
  cases spelledCommand (trimSpaces (dropComment line.toList)) <;> cases parseProgram rest <;> rfl

/-- A program of lines that each are blank or spell a command is read as those commands in order. -/
theorem parseProgram_map_fst (lines : List (String × Option Instr))
    (h : ∀ p ∈ lines, (lineText p.1 = [] ∧ p.2 = none) ∨ ∃ i, spelledCommand (lineText p.1) = some i ∧ p.2 = some i) :
    parseProgram (lines.map (·.1)) = some (lines.filterMap (·.2)) := by
  induction lines with
  | nil => rfl
  | cons p lines ih =>
    obtain ⟨hp, hlines⟩ := List.forall_mem_cons.1 h
    rw [List.map_cons]
    obtain ⟨hblank, hnone⟩ | ⟨i, hspelled, hsome⟩ := hp
    · rw [parseProgram_cons_of_blank hblank, ih hlines, List.filterMap_cons_none hnone]
    · have htext : lineText p.1 ≠ [] := by
        intro hnil
        rw [hnil, spelledCommand_nil] at hspelled
        cases hspelled
      rw [parseProgram_cons_of_text htext, ih hlines, hspelled, List.filterMap_cons_some hsome]
      rfl

/-- A line read as one command spells it. -/
theorem spelledCommand_of_parseProgram_singleton {line : String} {i : Instr} (h : parseProgram [line] = some [i]) :
    spelledCommand (lineText line) = some i := by
  by_cases htext : lineText line = []
  · rw [parseProgram_cons_of_blank htext] at h
    cases h
  · rw [parseProgram_cons_of_text htext] at h
    obtain ⟨j, hj, hrest⟩ := Option.bind_eq_some_iff.1 h
    cases hrest
    exact hj

/-! ### The spellings -/

/-- A text that is read as a command is one of the spellings of that command. -/
theorem exists_spelling_of_spelledCommand {text : List Char} {i : Instr} (h : spelledCommand text = some i) :
    ∃ q ∈ spellings, q.2 = i ∧ q.1.toList = text := by
  obtain ⟨q, hfind, hi⟩ := Option.map_eq_some_iff.1 h
  exact ⟨q, List.mem_of_find?_eq_some hfind, hi, by simpa using List.find?_some hfind⟩

/-- Every spelling is read as its own command: no two spellings are the same text. -/
theorem spelledCommand_spelling : ∀ q ∈ spellings, spelledCommand q.1.toList = some q.2 := by decide

/-- No spelling holds a comment sign. -/
theorem hash_not_mem_spelling : ∀ q ∈ spellings, '#' ∉ q.1.toList := by decide

/-- No spelling begins or ends with a space. -/
theorem trimSpaces_spelling : ∀ q ∈ spellings, trimSpaces q.1.toList = q.1.toList := by decide

/-! ### The text of a line -/

/-- A line without `#` is its own text, but for spaces at its ends. -/
theorem lineText_of_not_mem {line : String} (h : '#' ∉ line.toList) : lineText line = trimSpaces line.toList := by
  rw [lineText, dropComment_of_not_mem h]

/-- Spaces and a comment after a line do not change its text. -/
theorem lineText_append_comment {line : String} (h : '#' ∉ line.toList) (n : Nat) (text : String) :
    lineText (line ++ String.ofList (List.replicate n ' ') ++ "#" ++ text) = trimSpaces line.toList := by
  have hchars : (line ++ String.ofList (List.replicate n ' ') ++ "#" ++ text).toList =
      (line.toList ++ List.replicate n ' ') ++ '#' :: text.toList := by simp
  have hhash : '#' ∉ line.toList ++ List.replicate n ' ' := by simp [h]
  rw [lineText, hchars, dropComment_append hhash, trimSpaces_append_replicate]

/-- Spaces and a comment alone are no text. -/
theorem lineText_comment (n : Nat) (text : String) :
    lineText (String.ofList (List.replicate n ' ') ++ "#" ++ text) = [] := by
  simpa [trimSpaces] using lineText_append_comment (line := "") (by decide) n text

/-- Settles O5: the lines of the premise are blank or spell their command, and a line read as a command is its text,
a spelling, with spaces at both ends. -/
theorem programTextIsReadInOrder : Obligations.ProgramTextIsReadInOrder := by
  refine ⟨fun lines h => parseProgram_map_fst lines fun p hp => ?_, fun line i h => ?_⟩
  · obtain ⟨q, hq, hcommand, hline⟩ | ⟨hnone, hline⟩ := h p hp
    · refine .inr ⟨q.2, ?_, hcommand⟩
      have hhash := hash_not_mem_spelling q hq
      have htext : lineText p.1 = trimSpaces q.1.toList := by
        obtain hline | ⟨n, text, hline⟩ := hline
        · rw [hline, lineText_of_not_mem hhash]
        · rw [hline, lineText_append_comment hhash]
      rw [htext, trimSpaces_spelling q hq, spelledCommand_spelling q hq]
    · refine .inl ⟨?_, hnone⟩
      obtain hline | ⟨n, text, hline⟩ := hline
      · rw [hline, lineText_of_not_mem (by decide)]
        rfl
      · rw [hline, lineText_comment]
  · obtain ⟨q, hq, hi, htext⟩ := exists_spelling_of_spelledCommand (spelledCommand_of_parseProgram_singleton h)
    obtain ⟨a, b, hpad⟩ := eq_pad_trimSpaces (dropComment line.toList)
    exact ⟨q, hq, hi, a, b, by rw [htext]; exact hpad⟩

end Sys2Proof
end

