-- ==== Sys2Proof/Proofs/StepTable.lean ====
section
/-! SUPPORT. The step tables of every configuration (40_step_table.md): distinct pin identifiers, parity along a table
(R44), the neighbours of row 0, and that no operation writes the constants (R40). -/

namespace Sys2Proof.Machine

/-! ### The pin identifiers -/

theorem logicalPin_injective {m m' : Motor} {k k' : Fin 4} (h : logicalPin m k = logicalPin m' k') :
    m = m' ∧ k = k' := by
  constructor
  · rw [← motorOf_logicalPin m k, h, motorOf_logicalPin]
  · rw [← colOf_logicalPin m k, h, colOf_logicalPin]

/-- Equal identifiers are the same column of the same motor, since an identifier leads back to its logical pin
(20_memory.md R26). -/
theorem pinOf_eq_pinOf {c : Config} {m m' : Motor} {k k' : Fin 4} (h : pinOf c m k = pinOf c m' k') :
    m = m' ∧ k = k' := by
  have hlogical := congrArg (logicalOf c) h
  rw [logicalOf_pinOf, logicalOf_pinOf, Option.some.injEq] at hlogical
  exact logicalPin_injective hlogical

/-- Settles O8: each constraint is read from the configuration's own proof of it. -/
theorem configurationsMeetTheirConstraints : Obligations.ConfigurationsMeetTheirConstraints := by
  intro c
  obtain ⟨hdelayNum, hdelayDen⟩ := config_stepDelay_pos c
  obtain ⟨hclkNum, hclkDen⟩ := config_fClk_pos c
  exact ⟨tableRow_fwd_zero c, tableRow_fwd_zero c, tableRow_bwd_zero c, tableRow_bwd_zero c,
    popcount_adjacent_rows c, fun _ _ _ _ => pinOf_eq_pinOf, hdelayNum, hdelayDen, hclkNum, hclkDen⟩

/-! ### Parity along a table (40_step_table.md R44) -/

/-- One column changes: one lead more or one lead less. -/
theorem popcount_of_popcount_xor_eq_one (a b : Row) (h : popcount (a ^^^ b) = 1) :
    popcount b = popcount a + 1 ∨ popcount a = popcount b + 1 := by
  decide +revert

theorem popcount_next_row (c : Config) (t : TableSel) (i : Fin 8) :
    popcount (tableRow c t (i + 1)) = popcount (tableRow c t i) + 1 ∨
      popcount (tableRow c t i) = popcount (tableRow c t (i + 1)) + 1 :=
  popcount_of_popcount_xor_eq_one _ _ (popcount_adjacent_rows c t i)

/-- Row `i` has the parity of row 0 after `i` changes of parity. -/
theorem popcount_row_mod_two (c : Config) (t : TableSel) (i : Fin 8) :
    popcount (tableRow c t i) % 2 = (popcount (tableRow c t 0) + i.val) % 2 := by
  induction i using Fin.induction with
  | zero => rfl
  | succ i ih =>
    have hnext := popcount_next_row c t i.castSucc
    rw [Fin.coeSucc_eq_succ] at hnext
    rw [Fin.val_succ]
    rw [Fin.val_castSucc] at ih
    omega

theorem popcount_fwd_mod_two (c : Config) (i : Fin 8) : popcount (tableRow c .fwd i) % 2 = i.val % 2 := by
  have hzero : popcount 0b1001#4 = 2 := rfl
  rw [popcount_row_mod_two, tableRow_fwd_zero, hzero, Nat.add_mod_left]

theorem popcount_bwd_mod_two (c : Config) (i : Fin 8) : popcount (tableRow c .bwd i) % 2 = (i.val + 1) % 2 := by
  have hzero : popcount 0b0001#4 = 1 := rfl
  rw [popcount_row_mod_two, tableRow_bwd_zero, hzero, Nat.add_comm]

/-- A row of `FWD` and a row of `BWD` are equal only at places of different parity. -/
theorem odd_add_of_fwd_eq_bwd {c : Config} {i j : Fin 8} (h : tableRow c .fwd i = tableRow c .bwd j) :
    (i.val + j.val) % 2 = 1 := by
  have hfwd := popcount_fwd_mod_two c i
  rw [h, popcount_bwd_mod_two] at hfwd
  omega

theorem fwd_ne_bwd (c : Config) (i : Fin 8) : tableRow c .fwd i ≠ tableRow c .bwd i := by
  intro h
  have := odd_add_of_fwd_eq_bwd h
  omega

/-! ### The neighbours of row 0 -/

/-- Row 7 differs from row 0 in one column: adjacency goes all the way round (40_step_table.md R39). -/
theorem popcount_row_seven_xor_row_zero (c : Config) (t : TableSel) :
    popcount (tableRow c t 7 ^^^ tableRow c t 0) = 1 :=
  popcount_adjacent_rows c t 7

theorem popcount_neighbour_xor_row_zero (c : Config) (t : TableSel) {i : Fin 8} (hi : i = 7 ∨ i = 1) :
    popcount (tableRow c t i ^^^ tableRow c t 0) = 1 := by
  obtain rfl | rfl := hi
  · exact popcount_row_seven_xor_row_zero c t
  · rw [BitVec.xor_comm]
    exact popcount_adjacent_rows c t 0

/-- The four rows one column away from `FWD[0]`. -/
theorem neighbours_of_fwd_row_zero (r : Row) (h : popcount (r ^^^ 0b1001#4) = 1) :
    r = packRow false false false true ∨ r = packRow true false false false ∨
      r = packRow true true false true ∨ r = packRow true false true true := by
  decide +revert

/-- The four rows one column away from `BWD[0]`. -/
theorem neighbours_of_bwd_row_zero (r : Row) (h : popcount (r ^^^ 0b0001#4) = 1) :
    r = packRow true false false true ∨ r = packRow false true false true ∨
      r = packRow false false true true ∨ r = packRow false false false false := by
  decide +revert

/-- Settles O10: parity by induction along the table from row 0, the candidates as the neighbours of row 0. -/
theorem rowParityAlternates : Obligations.RowParityAlternates := by
  intro c
  refine ⟨popcount_next_row c, fun i => ⟨popcount_fwd_mod_two c i, popcount_bwd_mod_two c i⟩, fwd_ne_bwd c,
    fun _ _ => odd_add_of_fwd_eq_bwd, popcount_row_seven_xor_row_zero c, fun i hi => ⟨?_, ?_⟩⟩
  · exact neighbours_of_fwd_row_zero _ (tableRow_fwd_zero c ▸ popcount_neighbour_xor_row_zero c .fwd hi)
  · exact neighbours_of_bwd_row_zero _ (tableRow_bwd_zero c ▸ popcount_neighbour_xor_row_zero c .bwd hi)

/-! ### The constants are never written (40_step_table.md R40) -/

@[simp] theorem moveEdge_config (f1 f2 : Bool) (s : State) : (moveEdge f1 f2 s).config = s.config := by
  rcases moveEdge_cases s f1 f2 with ⟨-, he⟩ | ⟨-, he⟩ | ⟨-, -, he⟩ | ⟨-, -, he⟩ <;> simp [he]

theorem exec_config {i : Instr} {s t : State} (h : exec i s = .next t) : t.config = s.config := by
  rw [exec_eq] at h
  cases h
  exact moveEdge_config _ _ s

theorem microStep_config {offer : Option Instr} {e : Quantity} {s t : State} (h : microStep offer e s = some t) :
    t.config = s.config :=
  (abstractStep_frame (a := .micro offer e) h).1

theorem step_config {s t : State} (h : step s = .next t) : t.config = s.config := by
  rcases step_cases s t h with ⟨-, rfl⟩ | ⟨-, ⟨-, -, rfl⟩ | ⟨i, -, -, rfl⟩ | ⟨-, rfl⟩ | ⟨-, -, rfl⟩ | ⟨-, -, rfl⟩⟩ <;>
    simp

end Sys2Proof.Machine

namespace Sys2Proof.Safety

open Sys2Proof.Machine

/-- No run changes the constants, by induction on the number of edges. -/
theorem edges_config {n : Nat} {s t : State} (h : edges n s = .next t) : t.config = s.config := by
  induction n generalizing s with
  | zero => cases h; rfl
  | succ n ih =>
    obtain ⟨u, hstep, hrun⟩ := exists_step_of_run_succ h
    exact (ih hrun).trans (step_config hstep)

/-- Settles O11: equal constants read the same at every row. -/
theorem tablesNeverChange : Obligations.TablesNeverChange :=
  ⟨fun _ _ _ h _ _ => by rw [edges_config h], fun _ _ _ _ h _ _ => by rw [microStep_config h],
    fun _ _ _ h _ _ => by rw [exec_config h]⟩

end Sys2Proof.Safety
end

