-- ==== Sys2Proof/Proofs/MotorPins.lean ====
section
/-! SUPPORT. What the four pins of a motor show, column by column: at a held pattern a row of its table, and between
the writes of an iteration one of two adjacent rows (70_reset_and_hazards.md R87, R89). -/

namespace Sys2Proof.Machine

/-! ### The columns a motor shows -/

@[simp] theorem rowCol_motorPins (m : Motor) (p : Pins) (k : Fin 4) :
    rowCol (motorPins m p) k = p[logicalPin m k] := by
  obtain ⟨h0, h1, h2, h3⟩ :=
    rowCol_packRow p[logicalPin m 0] p[logicalPin m 1] p[logicalPin m 2] p[logicalPin m 3]
  fin_cases k
  · exact h0
  · exact h1
  · exact h2
  · exact h3

/-- The value written to a motor's pin is that column of the row of its table (30_encoding.md R33). -/
@[simp] theorem writeValue_logicalPin (c : Config) (f1 f2 : Bool) (i : Fin 8) (m : Motor) (k : Fin 4) :
    writeValue c f1 f2 i (logicalPin m k) = rowCol (tableRow c (selFor f1 f2 m) i) k := by
  rw [writeValue, motorOf_logicalPin, colOf_logicalPin]

/-- At a held pattern each motor shows its row (41_move.md R60). -/
theorem motorPins_heldPattern (c : Config) (f1 f2 : Bool) (i : Fin 8) (m : Motor) :
    motorPins m (heldPattern c f1 f2 i) = tableRow c (selFor f1 f2 m) i :=
  row_eq_of_rowCol_eq fun k => by rw [rowCol_motorPins, heldPattern_getElem, writeValue_logicalPin]

/-! ### A mixture of two adjacent rows is one of them -/

/-- Adjacent rows have one column in which they differ. -/
theorem exists_column_of_popcount_xor_eq_one (a b : Row) (h : popcount (a ^^^ b) = 1) :
    ∃ k : Fin 4, ∀ k' ≠ k, rowCol a k' = rowCol b k' := by
  decide +revert

/-- A mixture of two rows that differ at most in column `k` is the one it agrees with in column `k`. -/
theorem eq_of_mixture {a b r : Row} {k : Fin 4} (hrest : ∀ k' ≠ k, rowCol a k' = rowCol b k')
    (hmix : ∀ k', rowCol r k' = rowCol a k' ∨ rowCol r k' = rowCol b k') (hk : rowCol r k = rowCol a k) : r = a := by
  refine row_eq_of_rowCol_eq fun k' => ?_
  by_cases hk' : k' = k
  · rw [hk', hk]
  · obtain ha | hb := hmix k'
    · exact ha
    · rw [hb, hrest k' hk']

theorem eq_or_eq_of_mixture {a b r : Row} (hadj : popcount (a ^^^ b) = 1)
    (hmix : ∀ k, rowCol r k = rowCol a k ∨ rowCol r k = rowCol b k) : r = a ∨ r = b := by
  obtain ⟨k, hrest⟩ := exists_column_of_popcount_xor_eq_one a b hadj
  obtain ha | hb := hmix k
  · exact .inl (eq_of_mixture hrest hmix ha)
  · exact .inr (eq_of_mixture (fun k' hk' => (hrest k' hk').symm) (fun k' => (hmix k').symm) hb)

end Sys2Proof.Machine

namespace Sys2Proof.Safety

open Sys2Proof.Machine

/-- Between the writes each column shows the row before where it is still to be written, and the new row where it has
been (70_reset_and_hazards.md R89). -/
theorem rowCol_motorPins_of_write {s : State} (hpins : pinsOk s) (hphase : s.phase = .write) (hidx : s.idx ≠ 0)
    (m : Motor) (k : Fin 4) :
    rowCol (motorPins m s.pins) k = rowCol (tableRow s.config (selFor s.f1 s.f2 m) (s.idx - 1)) k ∨
      rowCol (motorPins m s.pins) k = rowCol (tableRow s.config (selFor s.f1 s.f2 m) s.idx) k := by
  obtain ⟨hwrite, -⟩ := hpins
  obtain ⟨hnew, hold⟩ := hwrite hphase (logicalPin m k)
  simp only [rowCol_motorPins, ← writeValue_logicalPin]
  obtain hlt | hle := lt_or_ge (logicalPin m k) s.sub
  · exact .inr (hnew hlt)
  · exact .inl (hold hle hidx)

/-- Settles O33: a motor shows a mixture of rows `idx - 1` and `idx`, which are adjacent. -/
theorem motorsShowRowsBetweenWrites : Obligations.MotorsShowRowsBetweenWrites := by
  intro s hpins hphase hidx m
  have hadj := popcount_adjacent_rows s.config (selFor s.f1 s.f2 m) (s.idx - 1)
  rw [sub_add_cancel] at hadj
  exact eq_or_eq_of_mixture hadj (rowCol_motorPins_of_write hpins hphase hidx m)

/-- An idle machine at row 7 holds the last pattern of its move: in the reset state it is at row 0. -/
theorem pins_eq_heldPattern_of_idle {s : State} (hidle : idleOk s) (hphase : s.phase = .idle) (hidx : s.idx = 7) :
    s.pins = heldPattern s.config s.f1 s.f2 7 := by
  obtain ⟨hzero, -⟩ | ⟨-, -, hheld⟩ := hidle hphase
  · rw [hidx] at hzero
    exact absurd hzero (by decide)
  · exact hheld

/-- Settles O34: the motor shows row 7 of the table that it keeps, and row 0 is the row after it. -/
theorem sameTableContinuesByOneColumn : Obligations.SameTableContinuesByOneColumn := by
  intro s i m hidle hphase hidx hsel
  rw [pins_eq_heldPattern_of_idle hidle hphase hidx, motorPins_heldPattern, hsel]
  exact popcount_row_seven_xor_row_zero s.config _

end Sys2Proof.Safety
end

