-- ==== Sys2Proof/Proofs/MicroSteps.lean ====
section
/-! SUPPORT. One rule per phase for the micro-step and for the clock edge (41_move.md R52 to R55, 60_exceptions.md
R72), and the place inside the move at which each of them leaves the machine. -/

namespace Sys2Proof.Machine

variable {s : State}

/-! ### The micro-step, by the phase -/

theorem microStep_of_idle (hp : s.phase = .idle) (offer : Option Instr) (e : Quantity) :
    microStep offer e s = offer.map fun i => accept (flag1 i) (flag2 i) s := by
  rw [microStep, hp]

theorem microStep_of_write (hp : s.phase = .write) (offer : Option Instr) (e : Quantity) :
    microStep offer e s = some (writePin s) := by
  rw [microStep, hp]

theorem microStep_of_delay (hp : s.phase = .delay) (offer : Option Instr) (e : Quantity) :
    microStep offer e s = if s.config.params.stepDelay.le e then some (delayEnd s) else none := by
  rw [microStep, hp]

/-! ### The clock edge without a reset, by the phase -/

theorem current_of_busy (hp : s.phase ≠ .idle) : current s = some (ofFlags s.f1 s.f2) := by
  rw [current, busy, decide_eq_true hp, if_pos rfl]

theorem current_of_idle (hp : s.phase = .idle) : current s = offered (sample s) := by
  simp [current, busy, hp]

theorem step_of_busy (hr : (sample s).rst = false) (hp : s.phase ≠ .idle) :
    step s = .next (moveEdge s.f1 s.f2 (consume s)) := by
  rw [step_of_current_some s (by simp [hr]) (current_of_busy hp), flag1_ofFlags, flag2_ofFlags]

theorem step_of_offer {i : Instr} (hr : (sample s).rst = false) (hp : s.phase = .idle)
    (ho : offered (sample s) = some i) : step s = .next (accept (flag1 i) (flag2 i) (consume s)) := by
  rw [step_of_current_some s (by simp [hr]) ((current_of_idle hp).trans ho)]
  exact congrArg _ (moveEdge_of_idle (consume s) _ _ hp)

theorem step_of_no_offer (hr : (sample s).rst = false) (hp : s.phase = .idle) (ho : offered (sample s) = none) :
    step s = .next (consume s) :=
  step_of_current_none s (by simp [hr]) ((current_of_idle hp).trans ho)

/-! ### Registers after WRITE and DELAY-END -/

theorem val_add_one_of_ne_seven {i : Fin 8} (h : i ≠ 7) : (i + 1).val = i.val + 1 := by
  decide +revert

theorem writePin_phase_of_eq (h : s.sub = 7) : (writePin s).phase = .delay := by rw [writePin_of_eq s h]

theorem writePin_phase_of_ne (h : s.sub ≠ 7) : (writePin s).phase = s.phase := by rw [writePin_of_ne s h]

theorem writePin_sub_of_eq (h : s.sub = 7) : (writePin s).sub = s.sub := by rw [writePin_of_eq s h]

theorem writePin_sub_of_ne (h : s.sub ≠ 7) : (writePin s).sub = s.sub + 1 := by rw [writePin_of_ne s h]

theorem writePin_timer_of_eq (h : s.sub = 7) : (writePin s).timer = delayCycles s.config := by
  rw [writePin_of_eq s h]

theorem writePin_timer_of_ne (h : s.sub ≠ 7) : (writePin s).timer = s.timer := by rw [writePin_of_ne s h]

theorem delayEnd_phase_of_eq (h : s.idx = 7) : (delayEnd s).phase = .idle := by rw [delayEnd_of_eq s h]

theorem delayEnd_phase_of_ne (h : s.idx ≠ 7) : (delayEnd s).phase = .write := by rw [delayEnd_of_ne s h]

theorem delayEnd_idx_of_eq (h : s.idx = 7) : (delayEnd s).idx = s.idx := by rw [delayEnd_of_eq s h]

theorem delayEnd_idx_of_ne (h : s.idx ≠ 7) : (delayEnd s).idx = s.idx + 1 := by rw [delayEnd_of_ne s h]

theorem delayEnd_sub_of_eq (h : s.idx = 7) : (delayEnd s).sub = s.sub := by rw [delayEnd_of_eq s h]

theorem delayEnd_sub_of_ne (h : s.idx ≠ 7) : (delayEnd s).sub = 0 := by rw [delayEnd_of_ne s h]

theorem delayEnd_trace_of_eq (h : s.idx = 7) : (delayEnd s).trace = s.trace ++ [.delay, .done] := by
  rw [delayEnd_of_eq s h]

theorem delayEnd_trace_of_ne (h : s.idx ≠ 7) : (delayEnd s).trace = s.trace ++ [.delay] := by
  rw [delayEnd_of_ne s h]

end Sys2Proof.Machine
end

