-- ==== Sys2Proof/Proofs/Invariant.lean ====
section
/-! SUPPORT. Each operation keeps the invariant: the pins row by row, the idle states, and the trace legal and as far
as the registers say (41_move.md R60, R62, 20_memory.md R27, 70_reset_and_hazards.md R82, R89). -/

namespace Sys2Proof.Safety

open Sys2Proof.Machine

variable {s t : State}

/-! ### The trace -/

theorem progressFrom_append (c : Config) (p : Progress) (es fs : List Event) :
    progressFrom c p (es ++ fs) = (progressFrom c p es).bind fun q => progressFrom c q fs := by
  induction es generalizing p with
  | nil => rfl
  | cons e es ih =>
    rw [List.cons_append, progressFrom, progressFrom]
    cases progressStep c p e with
    | none => rfl
    | some q => exact ih q

theorem progressFrom_singleton (c : Config) (p : Progress) (e : Event) :
    progressFrom c p [e] = progressStep c p e := by
  rw [progressFrom]
  cases progressStep c p e <;> rfl

theorem progressFrom_pair {c : Config} {p q : Progress} {e : Event} (h : progressStep c p e = some q) (e' : Event) :
    progressFrom c p [e, e'] = progressStep c q e' := by
  rw [progressFrom, h]
  exact progressFrom_singleton c q e'

/-- Events that lead from where the registers say before to where they say after keep the trace legal. -/
theorem traceOk_append {es : List Event} (h : traceOk s) (hconfig : t.config = s.config)
    (htrace : t.trace = s.trace ++ es) (hes : progressFrom s.config (progressOf s) es = some (progressOf t)) :
    traceOk t := by
  rw [traceOk, htrace, hconfig, progressFrom_append, h]
  exact hes

/-! ### The place in the move before and after each event -/

theorem progressOf_of_idle (hp : s.phase = .idle) : progressOf s = .idle := by
  rw [progressOf, hp]

theorem progressOf_of_write (hp : s.phase = .write) :
    progressOf s = .moving s.f1 s.f2 (9 * s.idx.val + s.sub.val) := by
  rw [progressOf, hp]

theorem progressOf_of_delay (hp : s.phase = .delay) : progressOf s = .moving s.f1 s.f2 (9 * s.idx.val + 8) := by
  rw [progressOf, hp]

theorem progressStep_reset (c : Config) (p : Progress) : progressStep c p .reset = some .idle := by
  cases p <;> rfl

theorem progressStep_accept (c : Config) (f1 f2 : Bool) :
    progressStep c .idle (.accept f1 f2) = some (.moving f1 f2 0) := rfl

/-- The next event of a move leads one event further. -/
theorem progressStep_event {c : Config} {f1 f2 : Bool} {n : Nat} {e : Event} (hn : n < 72) (hr : e ≠ .reset)
    (he : (moveEvents c f1 f2)[n]? = some e) : progressStep c (.moving f1 f2 n) e = some (.moving f1 f2 (n + 1)) := by
  rw [progressStep, if_neg hr]
  exact (if_pos hn).trans (if_pos he)

theorem progressStep_done (c : Config) (f1 f2 : Bool) : progressStep c (.moving f1 f2 72) .done = some .idle := rfl

theorem progressOf_writePin (hp : s.phase = .write) :
    progressOf (writePin s) = .moving s.f1 s.f2 (9 * s.idx.val + s.sub.val + 1) := by
  by_cases h : s.sub = 7
  · rw [progressOf_of_delay (writePin_phase_of_eq h), h, writePin_f1, writePin_f2, writePin_idx]
    rfl
  · rw [progressOf_of_write ((writePin_phase_of_ne h).trans hp), writePin_sub_of_ne h, val_add_one_of_ne_seven h,
      writePin_f1, writePin_f2, writePin_idx]
    rfl

theorem progressStep_writePin (hp : s.phase = .write) :
    progressStep s.config (progressOf s) (.setPin s.sub (writeValue s.config s.f1 s.f2 s.idx s.sub)) =
      some (progressOf (writePin s)) := by
  rw [progressOf_of_write hp, progressOf_writePin hp]
  exact progressStep_event (by omega) (by simp) (moveEvents_write s.config s.f1 s.f2 s.idx s.sub)

theorem progressStep_delay (hp : s.phase = .delay) :
    progressStep s.config (progressOf s) .delay = some (.moving s.f1 s.f2 (9 * s.idx.val + 9)) := by
  rw [progressOf_of_delay hp]
  exact progressStep_event (by omega) (by simp) (moveEvents_delay s.config s.f1 s.f2 s.idx)

theorem progressOf_delayEnd_of_ne (h : s.idx ≠ 7) :
    progressOf (delayEnd s) = .moving s.f1 s.f2 (9 * s.idx.val + 9) := by
  rw [progressOf_of_write (delayEnd_phase_of_ne h), delayEnd_sub_of_ne h, delayEnd_idx_of_ne h,
    val_add_one_of_ne_seven h, delayEnd_f1, delayEnd_f2]
  rfl

/-! ### The trace is kept -/

theorem traceOk_applyReset (h : traceOk s) : traceOk (applyReset s) :=
  traceOk_append h rfl rfl ((progressFrom_singleton _ _ _).trans (progressStep_reset _ _))

theorem traceOk_accept (hp : s.phase = .idle) (h : traceOk s) (f1 f2 : Bool) : traceOk (accept f1 f2 s) :=
  traceOk_append h rfl rfl (by rw [progressOf_of_idle hp, progressFrom_singleton]; exact progressStep_accept _ f1 f2)

theorem traceOk_writePin (hp : s.phase = .write) (h : traceOk s) : traceOk (writePin s) :=
  traceOk_append h (writePin_config s) (writePin_trace s)
    ((progressFrom_singleton _ _ _).trans (progressStep_writePin hp))

theorem traceOk_delayEnd (hp : s.phase = .delay) (h : traceOk s) : traceOk (delayEnd s) := by
  have hdelay := progressStep_delay hp
  by_cases hidx : s.idx = 7
  · refine traceOk_append h (delayEnd_config s) (delayEnd_trace_of_eq hidx) ?_
    rw [progressFrom_pair hdelay, hidx, progressOf_of_idle (delayEnd_phase_of_eq hidx)]
    exact progressStep_done s.config s.f1 s.f2
  · refine traceOk_append h (delayEnd_config s) (delayEnd_trace_of_ne hidx) ?_
    rw [progressFrom_singleton, hdelay, progressOf_delayEnd_of_ne hidx]

/-! ### The pins are kept -/

theorem pinsOk_of_idle (hp : s.phase = .idle) : pinsOk s := by
  simp [pinsOk, hp]

theorem pinsOk_accept (f1 f2 : Bool) : pinsOk (accept f1 f2 s) := by
  simp [pinsOk]

/-- After a write the pins below the new position show the new row. -/
theorem writePin_pins_getElem_of_le (hp : s.phase = .write) (h : pinsOk s) {j : Fin 8} (hj : j ≤ s.sub) :
    (writePin s).pins[j] = writeValue s.config s.f1 s.f2 s.idx j := by
  obtain ⟨hwrite, -⟩ := h
  obtain ⟨hnew, -⟩ := hwrite hp j
  rw [writePin_pins, pins_getElem_set]
  split_ifs with heq
  · rw [heq]
  · exact hnew (lt_of_le_of_ne hj heq)

theorem writePin_pins_getElem_of_ne {j : Fin 8} (hj : j ≠ s.sub) : (writePin s).pins[j] = s.pins[j] := by
  rw [writePin_pins, pins_getElem_set, if_neg hj]

theorem pinsOk_writePin (hp : s.phase = .write) (h : pinsOk s) : pinsOk (writePin s) := by
  by_cases hsub : s.sub = 7
  · have hphase := writePin_phase_of_eq hsub
    refine ⟨fun hw => by simp [hphase] at hw, fun _ => ?_⟩
    rw [eq_heldPattern_iff, writePin_config, writePin_f1, writePin_f2, writePin_idx]
    exact fun j => writePin_pins_getElem_of_le hp h (by omega)
  · have hphase := (writePin_phase_of_ne hsub).trans hp
    have hnext := val_add_one_of_ne_seven hsub
    refine ⟨fun _ j => ?_, fun hd => by simp [hphase] at hd⟩
    rw [writePin_sub_of_ne hsub, writePin_config, writePin_f1, writePin_f2, writePin_idx]
    refine ⟨fun hj => writePin_pins_getElem_of_le hp h (by omega), fun hj hidx => ?_⟩
    obtain ⟨hwrite, -⟩ := h
    obtain ⟨-, hold⟩ := hwrite hp j
    rw [writePin_pins_getElem_of_ne (by omega)]
    exact hold (by omega) hidx

theorem pins_eq_heldPattern_of_delay (hp : s.phase = .delay) (h : pinsOk s) :
    s.pins = heldPattern s.config s.f1 s.f2 s.idx := by
  obtain ⟨-, hdelay⟩ := h
  exact hdelay hp

theorem pinsOk_delayEnd (hp : s.phase = .delay) (h : pinsOk s) : pinsOk (delayEnd s) := by
  by_cases hidx : s.idx = 7
  · exact pinsOk_of_idle (delayEnd_phase_of_eq hidx)
  · have hphase := delayEnd_phase_of_ne hidx
    refine ⟨fun _ j => ⟨fun hj => ?_, fun _ _ => ?_⟩, fun hd => by simp [hphase] at hd⟩
    · rw [delayEnd_sub_of_ne hidx] at hj
      exact absurd hj (Fin.not_lt_zero j)
    · rw [delayEnd_pins, pins_eq_heldPattern_of_delay hp h, heldPattern_getElem, delayEnd_config, delayEnd_f1,
        delayEnd_f2, delayEnd_idx_of_ne hidx, add_sub_cancel_right]

/-! ### The idle states -/

theorem writePin_phase_ne_idle (hp : s.phase = .write) : (writePin s).phase ≠ .idle := by
  by_cases hsub : s.sub = 7
  · simp [writePin_phase_of_eq hsub]
  · simp [writePin_phase_of_ne hsub, hp]

theorem idleOk_of_busy (hp : s.phase ≠ .idle) : idleOk s := fun h => absurd h hp

/-- A move ends at row 7 with the pins of its last held pattern (41_move.md R62). -/
theorem idleOk_delayEnd (hp : s.phase = .delay) (hsub : s.sub = 7) (h : pinsOk s) : idleOk (delayEnd s) := by
  by_cases hidx : s.idx = 7
  · refine fun _ => .inr ⟨(delayEnd_idx_of_eq hidx).trans hidx, (delayEnd_sub_of_eq hidx).trans hsub, ?_⟩
    rw [delayEnd_pins, delayEnd_config, delayEnd_f1, delayEnd_f2, pins_eq_heldPattern_of_delay hp h, hidx]
  · exact idleOk_of_busy (by simp [delayEnd_phase_of_ne hidx])

/-! ### The invariant without a clock -/

/-- The write position during the delay: all eight writes are done. -/
theorem sub_writePin_of_delay (hp : s.phase = .write) (hd : (writePin s).phase = .delay) : (writePin s).sub = 7 := by
  by_cases hsub : s.sub = 7
  · exact (writePin_sub_of_eq hsub).trans hsub
  · simp [writePin_phase_of_ne hsub, hp] at hd

theorem delayEnd_phase_ne_delay : (delayEnd s).phase ≠ .delay := by
  by_cases hidx : s.idx = 7
  · simp [delayEnd_phase_of_eq hidx]
  · simp [delayEnd_phase_of_ne hidx]

theorem abstractInv_applyReset (h : AbstractInv s) : AbstractInv (applyReset s) := by
  obtain ⟨-, -, -, htrace⟩ := h
  exact ⟨nofun, pinsOk_of_idle rfl, fun _ => .inl ⟨rfl, rfl, rfl, rfl, rfl⟩, traceOk_applyReset htrace⟩

theorem abstractInv_accept (hp : s.phase = .idle) (h : AbstractInv s) (f1 f2 : Bool) :
    AbstractInv (accept f1 f2 s) := by
  obtain ⟨-, -, -, htrace⟩ := h
  exact ⟨nofun, pinsOk_accept f1 f2, nofun, traceOk_accept hp htrace f1 f2⟩

theorem abstractInv_writePin (hp : s.phase = .write) (h : AbstractInv s) : AbstractInv (writePin s) := by
  obtain ⟨-, hpins, -, htrace⟩ := h
  exact ⟨sub_writePin_of_delay hp, pinsOk_writePin hp hpins, idleOk_of_busy (writePin_phase_ne_idle hp),
    traceOk_writePin hp htrace⟩

theorem abstractInv_delayEnd (hp : s.phase = .delay) (h : AbstractInv s) : AbstractInv (delayEnd s) := by
  obtain ⟨hsub, hpins, -, htrace⟩ := h
  exact ⟨fun hd => absurd hd delayEnd_phase_ne_delay, pinsOk_delayEnd hp hpins,
    idleOk_delayEnd hp (hsub hp) hpins, traceOk_delayEnd hp htrace⟩

/-- Settles O40: each of ACCEPT, WRITE and DELAY-END keeps the invariant. -/
theorem everyMicroStepKeepsTheInvariant : Obligations.EveryMicroStepKeepsTheInvariant := by
  intro s t offer e h hstep
  rcases abstractStep_cases (a := .micro offer e) hstep with
    ⟨hreset, -⟩ | ⟨i, -, -, hp, rfl⟩ | ⟨-, -, -, hp, rfl⟩ | ⟨-, -, -, hp, -, rfl⟩
  · cases hreset
  · exact abstractInv_accept hp h _ _
  · exact abstractInv_writePin hp h
  · exact abstractInv_delayEnd hp h

/-! ### The invariant of the clocked machine -/

/-- The down-counter apart, the invariant is the one without a clock. -/
theorem inv_iff : Inv s ↔ controlOk s ∧ AbstractInv s := by
  constructor
  · rintro ⟨⟨hrunOut, hrunning⟩, hrest⟩
    exact ⟨⟨hrunOut, hrunning⟩, fun hp => (hrunning hp).1, hrest⟩
  · rintro ⟨hcontrol, -, hrest⟩
    exact ⟨hcontrol, hrest⟩

theorem controlOk_writePin (hp : s.phase = .write) (h : controlOk s) : controlOk (writePin s) := by
  obtain ⟨hrunOut, -⟩ := h
  have htimer : s.timer = 0 := hrunOut (by simp [hp])
  by_cases hsub : s.sub = 7
  · refine ⟨fun hd => absurd (writePin_phase_of_eq hsub) hd, fun hd => ⟨sub_writePin_of_delay hp hd, ?_⟩⟩
    rw [writePin_timer_of_eq hsub, writePin_config]
  · refine ⟨fun _ => (writePin_timer_of_ne hsub).trans htimer, fun hd => ?_⟩
    simp [writePin_phase_of_ne hsub, hp] at hd

theorem controlOk_delayEnd (htimer : s.timer = 0) : controlOk (delayEnd s) :=
  ⟨fun _ => (delayEnd_timer s).trans htimer, fun hd => absurd hd delayEnd_phase_ne_delay⟩

theorem controlOk_delayTick (hp : s.phase = .delay) (h : controlOk s) : controlOk (delayTick s) := by
  obtain ⟨-, hrunning⟩ := h
  obtain ⟨hsub, htimer⟩ := hrunning hp
  exact ⟨fun hd => absurd hp hd, fun _ => ⟨hsub, (Nat.sub_le _ _).trans htimer⟩⟩

theorem controlOk_accept (hp : s.phase = .idle) (h : controlOk s) (f1 f2 : Bool) : controlOk (accept f1 f2 s) := by
  obtain ⟨hrunOut, -⟩ := h
  exact ⟨fun _ => hrunOut (by simp [hp]), nofun⟩

/-- Settles O39: the case of the clock edge is a reset, one of the micro-steps, or an edge that no part of the
invariant but the down-counter's sees. -/
theorem everyStepKeepsTheInvariant : Obligations.EveryStepKeepsTheInvariant := by
  intro s t h hstep
  rw [inv_iff] at h ⊢
  obtain ⟨hcontrol, hinv⟩ : controlOk (consume s) ∧ AbstractInv (consume s) := h
  rcases step_cases s t hstep with
    ⟨-, rfl⟩ | ⟨-, ⟨-, -, rfl⟩ | ⟨i, hp, -, rfl⟩ | ⟨hp, rfl⟩ | ⟨hp, htimer, rfl⟩ | ⟨hp, -, rfl⟩⟩
  · exact ⟨⟨fun _ => rfl, nofun⟩, abstractInv_applyReset hinv⟩
  · exact ⟨hcontrol, hinv⟩
  · exact ⟨controlOk_accept hp hcontrol (flag1 i) (flag2 i), abstractInv_accept hp hinv (flag1 i) (flag2 i)⟩
  · exact ⟨controlOk_writePin hp hcontrol, abstractInv_writePin hp hinv⟩
  · exact ⟨controlOk_delayEnd htimer, abstractInv_delayEnd hp hinv⟩
  · exact ⟨controlOk_delayTick hp hcontrol, hinv⟩

end Sys2Proof.Safety
end

