-- ==== Sys2Proof/Proofs/OneEdge.lean ====
section
/-! SUPPORT. What one micro-step and one clock edge do, statement by statement (41_move.md R46, R52 to R55,
42_interfaces.md R66, 60_exceptions.md R76). -/

namespace Sys2Proof.Machine

/-! ### The flags of a move in flight (41_move.md R46) -/

/-- A clock edge of a busy machine without a reset is one of the three of a move in flight. -/
theorem step_cases_of_busy {s t : State} (hb : busy s = true) (hr : (sample s).rst = false) (h : step s = .next t) :
    (s.phase = .write ∧ t = writePin (consume s)) ∨
      (s.phase = .delay ∧ s.timer = 0 ∧ t = delayEnd (consume s)) ∨
      (s.phase = .delay ∧ s.timer ≠ 0 ∧ t = delayTick (consume s)) := by
  have hp : s.phase ≠ .idle := of_decide_eq_true hb
  rw [step_of_busy hr hp] at h
  cases h
  rcases moveEdge_cases (consume s) s.f1 s.f2 with ⟨hi, -⟩ | hw | hd | ht
  · exact absurd hi hp
  · exact .inl hw
  · exact .inr (.inl hd)
  · exact .inr (.inr ht)

/-- Settles O7: the selectors by evaluation; and none of the edges of a move in flight writes a flag. -/
theorem flagsSelectTables : Obligations.FlagsSelectTables := by
  refine ⟨fun _ _ => ⟨rfl, rfl⟩, ⟨rfl, rfl, rfl⟩, ⟨rfl, rfl, rfl⟩, ⟨rfl, rfl, rfl⟩, ⟨rfl, rfl, rfl⟩,
    fun s t hb hr h => ?_⟩
  rcases step_cases_of_busy hb hr h with ⟨-, rfl⟩ | ⟨-, -, rfl⟩ | ⟨-, -, rfl⟩ <;> simp

/-! ### Offers (41_move.md R53, 42_interfaces.md R66) -/

/-- ACCEPT of a command word latches its two bits. -/
theorem accept_decode (c : Cmd2) (s : State) :
    accept (flag1 (decode c)) (flag2 (decode c)) s = accept (c.getLsbD 1) (c.getLsbD 0) s := by
  rw [flag1_decode, flag2_decode]

theorem offered_of_valid (c : Cmd2) : offered ⟨false, true, c⟩ = some (decode c) := rfl

/-- In `IDLE` the word offered is accepted. -/
theorem step_of_word {s : State} {c : Cmd2} (hp : s.phase = .idle) (hs : sample s = ⟨false, true, c⟩) :
    step s = .next (accept (flag1 (decode c)) (flag2 (decode c)) (consume s)) :=
  step_of_offer (by rw [hs]) hp (by rw [hs, offered_of_valid])

/-- While busy a micro-step does not depend on the offer. -/
theorem microStep_offer_irrelevant {s : State} (hp : s.phase ≠ .idle) (a b : Option Instr) (e : Quantity) :
    microStep a e s = microStep b e s := by
  cases hphase : s.phase with
  | idle => exact absurd hphase hp
  | write => rw [microStep_of_write hphase, microStep_of_write hphase]
  | delay => rw [microStep_of_delay hphase, microStep_of_delay hphase]

/-- While busy a clock edge depends on no port but `rst`. -/
theorem step_offer_irrelevant {s : State} (hp : s.phase ≠ .idle) {a b : Inputs} (hab : a.rst = b.rst)
    (rest : List Inputs) : step { s with inputs := a :: rest } = step { s with inputs := b :: rest } := by
  cases hb : b.rst with
  | false =>
    rw [step_of_busy (s := { s with inputs := a :: rest }) (hab.trans hb) hp,
      step_of_busy (s := { s with inputs := b :: rest }) hb hp]
    rfl
  | true =>
    rw [step_of_rst { s with inputs := a :: rest } (hab.trans hb), step_of_rst { s with inputs := b :: rest } hb]
    rfl

/-- Settles O12: the micro-step and the clock edge of an idle machine are ACCEPT of the word's two bits, and those of a
busy machine do not read the offer. -/
theorem acceptLatchesTheCommand : Obligations.AcceptLatchesTheCommand := by
  refine ⟨fun s c e hp => ⟨?_, fun hs => ?_⟩, fun _ a b e hp => microStep_offer_irrelevant hp a b e,
    fun _ _ _ rest hp hab => step_offer_irrelevant hp hab rest⟩
  · rw [microStep_of_idle hp, Option.map_some, accept_decode]
    rfl
  · rw [step_of_word hp hs, accept_decode]
    rfl

/-- Settles O15, phase by phase. -/
theorem microStepEnabledExactly : Obligations.MicroStepEnabledExactly := by
  intro s offer e
  cases hp : s.phase with
  | idle => rw [microStep_of_idle hp]; simp
  | write => rw [microStep_of_write hp]; simp
  | delay =>
    rw [microStep_of_delay hp]
    cases hle : s.config.params.stepDelay.le e <;> simp

/-- A clock edge runs the command of the offered word in `IDLE`. -/
theorem step_eq_exec_of_word {s : State} {c : Cmd2} (hp : s.phase = .idle) (hs : sample s = ⟨false, true, c⟩) :
    step s = exec (decode c) (consume s) := by
  rw [step_of_word hp hs, exec_eq, moveEdge_of_idle (consume s) _ _ hp]

theorem step_eq_exec_of_busy {s : State} (hp : s.phase ≠ .idle) (hr : (sample s).rst = false) :
    step s = exec (ofFlags s.f1 s.f2) (consume s) := by
  rw [step_of_busy hr hp, exec_eq, flag1_ofFlags, flag2_ofFlags]

/-- Settles O17: an idle machine runs the word offered to it, also the one that `withFetchWord` places; a busy one the
command in flight. -/
theorem stepRunsTheDecodedCommand : Obligations.StepRunsTheDecodedCommand := by
  refine ⟨fun s w hp hs => step_eq_exec_of_word hp hs, fun s hp hr => step_eq_exec_of_busy hp hr,
    fun s nbits w i hi => ?_⟩
  cases hi
  exact step_eq_exec_of_word (s := s.withFetchWord nbits w) rfl rfl

/-! ### WRITE (41_move.md R54) -/

theorem step_of_write {s : State} (hp : s.phase = .write) (hr : (sample s).rst = false) :
    step s = .next (writePin (consume s)) := by
  rw [step_of_busy hr (by simp [hp]), moveEdge_of_write (consume s) _ _ hp]

/-- No time at all is less than `STEP_DELAY`. -/
theorem stepDelay_le_zero (c : Config) : c.params.stepDelay.le ⟨0, 1⟩ = false := by
  obtain ⟨hnum, -⟩ := config_stepDelay_pos c
  simp only [Quantity.le, decide_eq_false_iff_not]
  omega

/-- The value written, with the table spelled out by the flags (30_encoding.md R33, 41_move.md R46). -/
theorem writeValue_eq (c : Config) (f1 f2 : Bool) (idx sub : Fin 8) :
    writeValue c f1 f2 idx sub =
      rowCol (tableRow c (if sub.val < 4 then (if f1 = true then .bwd else .fwd)
        else (if f2 = true then .fwd else .bwd)) idx) (colOf sub) := by
  unfold writeValue motorOf
  by_cases h : sub.val < 4
  · rw [if_pos h, if_pos h]; rfl
  · rw [if_neg h, if_neg h]; rfl

/-- Settles O13: the registers after WRITE, before the eighth write and at it. -/
theorem writeWritesExactlyOnePin : Obligations.WriteWritesExactlyOnePin := by
  intro s hp hr
  have hpin : (writePin (consume s)).pins[s.sub] = writeValue s.config s.f1 s.f2 s.idx s.sub := by
    rw [writePin_pins]
    exact (pins_getElem_set _ _ _ _).trans (if_pos rfl)
  refine ⟨writePin (consume s), step_of_write hp hr, ?_, ?_, ?_, ?_, writePin_f1 _, writePin_f2 _, writePin_idx _,
    fun hsub => ?_, fun hsub => ?_⟩
  · rintro T rfl
    rw [hpin, writeValue_eq]
    rfl
  · intro j hj
    rw [writePin_pins, pins_getElem_set]
    exact if_neg hj
  · exact logicalOf_pinOf_motorOf_colOf s.config s.sub
  · rw [hpin, writePin_trace]
    rfl
  · have heq : (consume s).sub = 7 := hsub
    have hphase := writePin_phase_of_eq heq
    refine ⟨hphase, writePin_sub_of_eq heq, writePin_timer_of_eq heq, fun offer => ?_⟩
    rw [microStep_of_delay hphase, stepDelay_le_zero]
    rfl
  · have hne : (consume s).sub ≠ 7 := hsub
    refine ⟨(writePin_phase_of_ne hne).trans hp, ?_, writePin_timer_of_ne hne⟩
    rw [writePin_sub_of_ne hne]
    exact val_add_one_of_ne_seven hsub

/-! ### The delay (41_move.md R55, 60_exceptions.md R76) -/

theorem step_of_delay_zero {s : State} (hp : s.phase = .delay) (ht : s.timer = 0) (hr : (sample s).rst = false) :
    step s = .next (delayEnd (consume s)) := by
  rw [step_of_busy hr (by simp [hp]), moveEdge_of_delay (consume s) _ _ hp, consume_timer, if_pos ht]

theorem microStep_of_delay_le {s : State} (hp : s.phase = .delay) {e : Quantity}
    (he : s.config.params.stepDelay.le e = true) (offer : Option Instr) :
    microStep offer e s = some (delayEnd s) := by
  rw [microStep_of_delay hp, if_pos he]

/-- Settles O14: the micro-step in `DELAY` is DELAY-END from `STEP_DELAY` on, and so is the clock edge at which the
timer has run out; ACCEPT overwrites what the last move left. -/
theorem delayEndMovesOn : Obligations.DelayEndMovesOn := by
  refine ⟨fun s i e g1 g2 j k hp => ?_, fun s offer e hp => ⟨fun he => ?_, fun he => ⟨fun hidx => ?_, fun hidx => ?_⟩,
    fun hr ht he => ?_⟩⟩
  · rw [microStep_of_idle hp, microStep_of_idle (s := { s with f1 := g1, f2 := g2, idx := j, sub := k }) hp]
    rfl
  · rw [microStep_of_delay hp, he]
    rfl
  · rw [microStep_of_delay_le hp he, delayEnd_of_eq s hidx]
  · exact ⟨s.idx + 1, val_add_one_of_ne_seven hidx, by rw [microStep_of_delay_le hp he, delayEnd_of_ne s hidx]⟩
  · exact ⟨delayEnd (consume s), microStep_of_delay_le (s := consume s) hp he offer, step_of_delay_zero hp ht hr⟩

/-! ### The frame of a command (10_state.md R16, R18) -/

@[simp] theorem moveEdge_inputs (f1 f2 : Bool) (s : State) : (moveEdge f1 f2 s).inputs = s.inputs := by
  rcases moveEdge_cases s f1 f2 with ⟨-, he⟩ | ⟨-, he⟩ | ⟨-, -, he⟩ | ⟨-, -, he⟩ <;> simp [he]

theorem moveEdge_trace_grows (f1 f2 : Bool) (s : State) : ∃ es, (moveEdge f1 f2 s).trace = s.trace ++ es := by
  rcases moveEdge_cases s f1 f2 with ⟨-, he⟩ | ⟨-, he⟩ | ⟨-, -, he⟩ | ⟨-, -, he⟩ <;> rw [he]
  · exact ⟨_, accept_trace s f1 f2⟩
  · exact ⟨_, writePin_trace s⟩
  · by_cases hidx : s.idx = 7
    · exact ⟨_, delayEnd_trace_of_eq hidx⟩
    · exact ⟨_, delayEnd_trace_of_ne hidx⟩
  · exact ⟨[], (List.append_nil _).symm⟩

/-- Settles O23: the frame of the one clock edge that every command is, phase by phase. -/
theorem commandFrame : Obligations.CommandFrame := by
  intro i s t h
  rw [exec_eq] at h
  cases h
  refine ⟨moveEdge_config _ _ s, moveEdge_inputs _ _ s, moveEdge_trace_grows _ _ s, fun hp => ?_, fun hp => ?_,
    fun hp => ?_⟩
  · rw [moveEdge_of_idle _ _ _ hp]
    exact ⟨rfl, rfl⟩
  · rw [moveEdge_of_write _ _ _ hp, logicalOf_pinOf_motorOf_colOf]
    refine ⟨writePin_f1 s, writePin_f2 s, writePin_idx s, writePin_timer_of_ne, ?_⟩
    rintro a ⟨⟩ j hj
    rw [writePin_pins, pins_getElem_set, if_neg hj]
  · rw [moveEdge_of_delay _ _ _ hp]
    by_cases ht : s.timer = 0
    · rw [if_pos ht]
      exact ⟨delayEnd_pins s, delayEnd_f1 s, delayEnd_f2 s, fun hne => absurd ht hne⟩
    · rw [if_neg ht]
      exact ⟨rfl, rfl, rfl, fun _ => ⟨rfl, rfl, rfl, rfl⟩⟩

/-! ### The clock edge as a micro-step (41_move.md R58, 60_exceptions.md R76) -/

/-- `DELAY_CYCLES + 1` cycles are at least `STEP_DELAY`: already the ceiling is. -/
theorem stepDelay_le_cyclesTime (c : Config) :
    c.params.stepDelay.le (cyclesTime c (delayCycles c + 1)) = true := by
  refine decide_eq_true ?_
  calc c.params.stepDelay.num * c.params.fClk.num
      ≤ delayCycles c * (c.params.stepDelay.den * c.params.fClk.den) := le_delayCycles_mul c
    _ ≤ (delayCycles c + 1) * (c.params.stepDelay.den * c.params.fClk.den) := Nat.mul_le_mul_right _ (Nat.le_succ _)
    _ = (delayCycles c + 1) * c.params.fClk.den * c.params.stepDelay.den := by ring

/-- Settles O41: ACCEPT, WRITE and DELAY-END are the micro-steps of the same name; a quiet idle edge and a running
delay change nothing that the machine without a clock sees. -/
theorem clockRefinesMicroSteps : Obligations.ClockRefinesMicroSteps := by
  intro s t h
  have hle := stepDelay_le_cyclesTime s.config
  rcases step_cases s t h with ⟨hr, rfl⟩ | ⟨-, ⟨-, -, rfl⟩ | ⟨i, hp, ho, rfl⟩ | ⟨hp, rfl⟩ | ⟨hp, -, rfl⟩ | ⟨-, -, rfl⟩⟩
  · exact .inl ⟨hr, rfl⟩
  · exact .inr (.inr rfl)
  · exact .inr (.inl ⟨hle, (microStep_of_idle (s := consume s) hp _ _).trans (by rw [ho]; rfl)⟩)
  · exact .inr (.inl ⟨hle, microStep_of_write (s := consume s) hp _ _⟩)
  · exact .inr (.inl ⟨hle, microStep_of_delay_le (s := consume s) hp hle _⟩)
  · exact .inr (.inr rfl)

end Sys2Proof.Machine
end

