-- ==== Sys2Proof/Proofs/Patterns.lean ====
section
/-! SUPPORT. The patterns on the pins (41_move.md R56, R57, R60): what `Apply` leaves on each pin, and that the eight
writes of an iteration give the held pattern in any order. -/

namespace Sys2Proof.Machine

/-! ### Apply -/

/-- The pins after `Apply(m, row)`. -/
def applyPins (m : Motor) (row : Row) (p : Pins) : Pins :=
  (List.finRange 4).foldl (fun q k => q.set (logicalPin m k) (rowCol row k)) p

theorem applyRow_eq (m : Motor) (row : Row) (s : State) :
    applyRow m row s =
      { s with
        pins := applyPins m row s.pins
        trace := s.trace ++
          [.setPin (logicalPin m 0) (rowCol row 0), .setPin (logicalPin m 1) (rowCol row 1),
           .setPin (logicalPin m 2) (rowCol row 2), .setPin (logicalPin m 3) (rowCol row 3)] } := by
  have hcols : List.finRange 4 = [0, 1, 2, 3] := rfl
  simp [applyRow, applyPins, hcols, setPin_pinOf]

theorem logicalPin_eq_iff (m : Motor) (k : Fin 4) (j : Fin 8) : j = logicalPin m k ↔ motorOf j = m ∧ colOf j = k := by
  constructor
  · rintro rfl
    exact ⟨motorOf_logicalPin m k, colOf_logicalPin m k⟩
  · rintro ⟨rfl, rfl⟩
    exact (logicalPin_motorOf_colOf j).symm

/-- After writes to some columns of motor `m` a pin shows the column where it is written, else its old level. -/
theorem foldl_set_getElem (m : Motor) (row : Row) (cols : List (Fin 4)) (p : Pins) (j : Fin 8) :
    (cols.foldl (fun (q : Pins) k => q.set (logicalPin m k) (rowCol row k)) p)[j] =
      if motorOf j = m ∧ colOf j ∈ cols then rowCol row (colOf j) else p[j] := by
  induction cols generalizing p with
  | nil => simp
  | cons k cols ih =>
    rw [List.foldl_cons, ih, pins_getElem_set]
    simp only [logicalPin_eq_iff, List.mem_cons]
    by_cases hm : motorOf j = m <;> by_cases hk : colOf j = k <;> simp [hm, hk]

/-- Motor `m`'s pins show the row, the others what they showed. -/
theorem applyPins_getElem (m : Motor) (row : Row) (p : Pins) (j : Fin 8) :
    (applyPins m row p)[j] = if motorOf j = m then rowCol row (colOf j) else p[j] := by
  rw [applyPins, foldl_set_getElem]
  simp [List.mem_finRange]

theorem motorPins_applyPins_same (m : Motor) (row : Row) (p : Pins) : motorPins m (applyPins m row p) = row :=
  row_eq_of_rowCol_eq fun k => by
    rw [rowCol_motorPins, applyPins_getElem, if_pos (motorOf_logicalPin m k), colOf_logicalPin]

theorem motorPins_applyPins_other {m m' : Motor} (h : m' ≠ m) (row : Row) (p : Pins) :
    motorPins m' (applyPins m row p) = motorPins m' p :=
  row_eq_of_rowCol_eq fun k => by
    rw [rowCol_motorPins, rowCol_motorPins, applyPins_getElem, motorOf_logicalPin, if_neg h]

/-- Settles O18: the four writes, and what each pin then shows. -/
theorem applyWritesTheFourPins : Obligations.ApplyWritesTheFourPins := fun m row s =>
  ⟨applyPins m row s.pins, applyRow_eq m row s, motorPins_applyPins_same m row s.pins,
    fun _ h => motorPins_applyPins_other h row s.pins⟩

/-! ### The eight writes in any order -/

/-- A pin shows the value of the iteration where it is written, else its old level, in whatever order. -/
theorem writeInOrder_getElem (c : Config) (f1 f2 : Bool) (i : Fin 8) (order : List (Fin 8)) (p : Pins) (j : Fin 8) :
    (writeInOrder c f1 f2 i order p)[j] = if j ∈ order then writeValue c f1 f2 i j else p[j] := by
  induction order generalizing p with
  | nil => simp [writeInOrder]
  | cons k order ih =>
    rw [writeInOrder, List.foldl_cons]
    refine (ih _).trans ?_
    rw [pins_getElem_set]
    by_cases hk : j = k <;> simp [hk]

end Sys2Proof.Machine

namespace Sys2Proof.Safety

open Sys2Proof.Machine

/-- Settles O32: every pin occurs in the order, so every pin shows the value of the iteration; and the invariant keeps
the held pattern during the delay. -/
theorem heldPatternsInAnyWriteOrder : Obligations.HeldPatternsInAnyWriteOrder := by
  refine ⟨fun c f1 f2 i order p hall => (eq_heldPattern_iff ..).2 fun j => ?_, fun s hpins hp k => ?_⟩
  · rw [writeInOrder_getElem, if_pos (hall j)]
  · rw [pins_eq_heldPattern_of_delay hp hpins, heldPattern_getElem, heldPattern_getElem, writeValue_logicalPin,
      writeValue_logicalPin]
    exact ⟨rfl, rfl⟩

end Sys2Proof.Safety
end

