-- ==== Sys2Proof/Proofs/LegalTraces.lean ====
section
/-! SUPPORT. A legal trace without a reset is a number of whole moves and the events of the one in flight (20_memory.md
R27, 41_move.md R59, R61); so its events are counted move by move. -/

namespace Sys2Proof.Safety

open Sys2Proof.Machine

/-! ### The events of a move in flight and of a whole move -/

/-- The events of the move in flight so far. -/
def eventsSoFar (c : Config) : Progress → List Event
  | .idle => []
  | .moving f1 f2 n => .accept f1 f2 :: (moveEvents c f1 f2).take n

/-- All the events of `move(f1, f2)`. -/
def wholeMove (c : Config) (f : Bool × Bool) : List Event :=
  .accept f.1 f.2 :: moveEvents c f.1 f.2 ++ [.done]

/-- An event of a legal trace, not a reset, begins a move, goes on with it, or ends it. -/
theorem progressStep_cases {c : Config} {p q : Progress} {e : Event} (h : progressStep c p e = some q)
    (hr : e ≠ .reset) :
    (∃ f1 f2, p = .idle ∧ e = .accept f1 f2 ∧ q = .moving f1 f2 0) ∨
      (∃ f1 f2 n, p = .moving f1 f2 n ∧ (moveEvents c f1 f2)[n]? = some e ∧ q = .moving f1 f2 (n + 1)) ∨
      (∃ f1 f2 n, p = .moving f1 f2 n ∧ 72 ≤ n ∧ e = .done ∧ q = .idle) := by
  cases p with
  | idle =>
    cases e <;> cases h
    · exact .inl ⟨_, _, rfl, rfl, rfl⟩
    · exact absurd rfl hr
  | moving f1 f2 n =>
    rw [progressStep, if_neg hr] at h
    split_ifs at h with hn he hdone
    · exact .inr (.inl ⟨f1, f2, n, rfl, he, (Option.some.inj h).symm⟩)
    · exact .inr (.inr ⟨f1, f2, n, rfl, by omega, hdone, (Option.some.inj h).symm⟩)

theorem eventsSoFar_of_le {c : Config} {f1 f2 : Bool} {n : Nat} (hn : 72 ≤ n) :
    eventsSoFar c (.moving f1 f2 n) = .accept f1 f2 :: moveEvents c f1 f2 := by
  rw [eventsSoFar, List.take_of_length_le]
  rwa [moveEvents_length]

/-- An event that does not end a move is added to the events so far; one that ends it makes them the whole move. -/
theorem eventsSoFar_append {c : Config} {p q : Progress} {e : Event} (h : progressStep c p e = some q)
    (hr : e ≠ .reset) :
    eventsSoFar c p ++ [e] = eventsSoFar c q ∨ ∃ f, eventsSoFar c p ++ [e] = wholeMove c f ∧ q = .idle := by
  rcases progressStep_cases h hr with
    ⟨f1, f2, rfl, rfl, rfl⟩ | ⟨f1, f2, n, rfl, he, rfl⟩ | ⟨f1, f2, n, rfl, hn, rfl, rfl⟩
  · exact .inl rfl
  · left
    rw [eventsSoFar, eventsSoFar, List.take_add_one, he]
    rfl
  · refine .inr ⟨(f1, f2), ?_, rfl⟩
    rw [eventsSoFar_of_le hn]
    rfl

/-- A legal trace without a reset, from a place inside a move or between moves, completes whole moves and leaves the
events of the one in flight. -/
theorem exists_wholeMoves_of_progressFrom {c : Config} {es : List Event} {p q : Progress}
    (h : progressFrom c p es = some q) (hr : Event.reset ∉ es) :
    ∃ moves : List (Bool × Bool), eventsSoFar c p ++ es = moves.flatMap (wholeMove c) ++ eventsSoFar c q := by
  induction es generalizing p with
  | nil =>
    cases h
    exact ⟨[], List.append_nil _⟩
  | cons e es ih =>
    obtain ⟨hre, hres⟩ := not_or.1 (mt List.mem_cons.2 hr)
    rw [progressFrom] at h
    split at h
    · next p' hstep =>
      obtain ⟨moves, hmoves⟩ := ih h hres
      rw [List.append_cons]
      rcases eventsSoFar_append hstep (Ne.symm hre) with hp | ⟨f, hp, rfl⟩
      · exact ⟨moves, by rw [hp, hmoves]⟩
      · refine ⟨f :: moves, ?_⟩
        rw [hp, List.flatMap_cons, List.append_assoc, ← hmoves]
        rfl
    · cases h

/-! ### Counting -/

/-- What occurs `k` times in each move occurs `k` times the number of moves. -/
theorem countP_flatMap_wholeMove {c : Config} {P : Event → Bool} {k : Nat} (h : ∀ f, (wholeMove c f).countP P = k)
    (moves : List (Bool × Bool)) : (moves.flatMap (wholeMove c)).countP P = k * moves.length := by
  induction moves with
  | nil => rfl
  | cons f moves ih =>
    rw [List.flatMap_cons, List.countP_append, h, ih, List.length_cons]
    ring

theorem wholeMove_countP_isWrite (c : Config) (f : Bool × Bool) : (wholeMove c f).countP isWrite = 64 := rfl

theorem wholeMove_countP_isWriteTo (c : Config) (f : Bool × Bool) (j : Fin 8) :
    (wholeMove c f).countP (isWriteTo j) = 8 := by
  fin_cases j <;> rfl

theorem wholeMove_count_delay (c : Config) (f : Bool × Bool) : (wholeMove c f).count .delay = 8 := rfl

theorem wholeMove_count_done (c : Config) (f : Bool × Bool) : (wholeMove c f).count .done = 1 := rfl

theorem wholeMove_countP_isAccept (c : Config) (f : Bool × Bool) : (wholeMove c f).countP isAccept = 1 := rfl

/-- Settles O42: between moves the trace is whole moves alone, and each is counted once. -/
theorem legalTracesCount : Obligations.LegalTracesCount := by
  intro c es h hr
  obtain ⟨moves, hmoves⟩ := exists_wholeMoves_of_progressFrom h hr
  have hes : es = moves.flatMap (wholeMove c) := by simpa [eventsSoFar] using hmoves
  have hdone : es.count .done = 1 * moves.length := by
    rw [hes]
    exact countP_flatMap_wholeMove (wholeMove_count_done c) moves
  rw [hdone, one_mul, hes]
  refine ⟨countP_flatMap_wholeMove (wholeMove_countP_isWrite c) moves, fun j =>
    countP_flatMap_wholeMove (fun f => wholeMove_countP_isWriteTo c f j) moves,
    countP_flatMap_wholeMove (wholeMove_count_delay c) moves, ?_⟩
  rw [countP_flatMap_wholeMove (wholeMove_countP_isAccept c), one_mul]

end Sys2Proof.Safety
end

