-- ==== Sys2Proof/Proofs/WholeMove.lean ====
section
/-! SUPPORT. A move in flight and its end, event by event: an accepted command and the micro-steps after it make the
whole `move` (41_move.md R47, R53 to R55, R62). -/

namespace Sys2Proof.Safety

open Sys2Proof.Machine

/-! ### Inside the move -/

/-- `t` is inside the move `move(f1, f2)` accepted in `s`, with `n` of its events done. -/
structure InMove (s : State) (f1 f2 : Bool) (n : Nat) (t : State) : Prop where
  config : t.config = s.config
  inputs : t.inputs = s.inputs
  progress : progressOf t = .moving f1 f2 n
  sub : t.phase = .delay → t.sub = 7
  pins : pinsOk t
  trace : t.trace = s.trace ++ eventsSoFar s.config (.moving f1 f2 n)

/-- What the place in a move says of the registers: the flags, and the iteration with its writes or its delay. -/
theorem progressOf_eq_moving_iff {t : State} {f1 f2 : Bool} {n : Nat} :
    progressOf t = .moving f1 f2 n ↔
      (t.f1 = f1 ∧ t.f2 = f2) ∧
        (t.phase = .write ∧ n = 9 * t.idx.val + t.sub.val ∨ t.phase = .delay ∧ n = 9 * t.idx.val + 8) := by
  cases hp : t.phase with
  | idle => simp [progressOf_of_idle hp]
  | write => simp [progressOf_of_write hp, and_assoc, eq_comm (b := n)]
  | delay => simp [progressOf_of_delay hp, and_assoc, eq_comm (b := n)]

/-- An event that leads to a place inside a move is added to the events so far. -/
theorem eventsSoFar_next {c : Config} {p : Progress} {e : Event} {f1 f2 : Bool} {n : Nat}
    (h : progressStep c p e = some (.moving f1 f2 n)) (hr : e ≠ .reset) :
    eventsSoFar c p ++ [e] = eventsSoFar c (.moving f1 f2 n) := by
  rcases eventsSoFar_append h hr with hp | ⟨-, -, hidle⟩
  · exact hp
  · cases hidle

variable {s t u : State} {f1 f2 : Bool} {n : Nat}

theorem inMove_accept (s : State) (f1 f2 : Bool) : InMove s f1 f2 0 (accept f1 f2 s) :=
  ⟨rfl, rfl, rfl, nofun, pinsOk_accept f1 f2, rfl⟩

theorem InMove.flags (h : InMove s f1 f2 n t) : t.f1 = f1 ∧ t.f2 = f2 :=
  (progressOf_eq_moving_iff.1 h.progress).1

theorem InMove.place (h : InMove s f1 f2 n t) :
    t.phase = .write ∧ n = 9 * t.idx.val + t.sub.val ∨ t.phase = .delay ∧ n = 9 * t.idx.val + 8 :=
  (progressOf_eq_moving_iff.1 h.progress).2

theorem InMove.busy (h : InMove s f1 f2 n t) : busy t = true := by
  obtain ⟨hp, -⟩ | ⟨hp, -⟩ := h.place <;> simp [Machine.busy, hp]

/-- The trace one event further inside the move. -/
theorem InMove.trace_append (h : InMove s f1 f2 n t) {e : Event} (hr : e ≠ .reset)
    (hstep : progressStep t.config (progressOf t) e = some (.moving f1 f2 (n + 1))) :
    t.trace ++ [e] = s.trace ++ eventsSoFar s.config (.moving f1 f2 (n + 1)) := by
  rw [h.config, h.progress] at hstep
  rw [h.trace, List.append_assoc, eventsSoFar_next hstep hr]

theorem InMove.writePin (h : InMove s f1 f2 n t) (hp : t.phase = .write) : InMove s f1 f2 (n + 1) (writePin t) := by
  have hprogress : progressOf (Machine.writePin t) = .moving f1 f2 (n + 1) := by
    obtain ⟨rfl, rfl, rfl⟩ := Progress.moving.inj ((progressOf_of_write hp).symm.trans h.progress)
    exact progressOf_writePin hp
  exact {
    config := (writePin_config t).trans h.config
    inputs := (writePin_inputs t).trans h.inputs
    progress := hprogress
    sub := sub_writePin_of_delay hp
    pins := pinsOk_writePin hp h.pins
    trace := (writePin_trace t).trans (h.trace_append nofun (hprogress ▸ progressStep_writePin hp)) }

theorem InMove.delayEnd (h : InMove s f1 f2 n t) (hp : t.phase = .delay) (hidx : t.idx ≠ 7) :
    InMove s f1 f2 (n + 1) (delayEnd t) := by
  have hprogress : progressOf (Machine.delayEnd t) = .moving f1 f2 (n + 1) := by
    obtain ⟨rfl, rfl, rfl⟩ := Progress.moving.inj ((progressOf_of_delay hp).symm.trans h.progress)
    exact progressOf_delayEnd_of_ne hidx
  have hstep := progressStep_delay hp
  rw [← progressOf_delayEnd_of_ne hidx, hprogress] at hstep
  exact {
    config := (delayEnd_config t).trans h.config
    inputs := (delayEnd_inputs t).trans h.inputs
    progress := hprogress
    sub := fun hd => absurd hd delayEnd_phase_ne_delay
    pins := pinsOk_delayEnd hp h.pins
    trace := (delayEnd_trace_of_ne hidx).trans (h.trace_append nofun hstep) }

/-- A running delay stays at its place. -/
theorem InMove.delayTick (h : InMove s f1 f2 n t) : InMove s f1 f2 n (delayTick t) :=
  ⟨h.config, h.inputs, h.progress, h.sub, h.pins, h.trace⟩

/-- At a delay point the pins hold the pattern of the iteration (41_move.md R60). -/
theorem InMove.pins_of_delay (h : InMove s f1 f2 n t) (hp : t.phase = .delay) :
    t.pins = heldPattern s.config f1 f2 t.idx := by
  obtain ⟨rfl, rfl⟩ := h.flags
  rw [pins_eq_heldPattern_of_delay hp h.pins, h.config]

/-- The eighth delay ends the move in the end state of `move` (41_move.md R62), the timer apart. -/
theorem InMove.delayEnd_eq_move (h : InMove s f1 f2 n t) (hp : t.phase = .delay) (hidx : t.idx = 7) :
    Machine.delayEnd t = { move f1 f2 s with timer := t.timer } := by
  have hpins := h.pins_of_delay hp
  obtain ⟨hf1, hf2, rfl⟩ := Progress.moving.inj ((progressOf_of_delay hp).symm.trans h.progress)
  have htrace := h.trace_append (e := .delay) nofun (by rw [progressStep_delay hp, hf1, hf2])
  rw [hidx] at hpins htrace
  rw [eventsSoFar_of_le (by decide)] at htrace
  rw [delayEnd_of_eq t hidx, move_eq, State.mk.injEq]
  refine ⟨h.config, h.inputs, hf1, hf2, hidx, rfl, h.sub hp, rfl, hpins, ?_⟩
  rw [List.append_cons, htrace]
  simp

theorem abstractView_setTimer (s : State) (k : Nat) : abstractView { s with timer := k } = abstractView s := rfl

/-! ### The micro-steps of a move (41_move.md R62) -/

/-- Any micro-step but the last leads to the next place of the move, once the delay has been long enough. -/
theorem InMove.microStep (h : InMove s f1 f2 n t) (hn : n < 71) (offer : Option Instr) {e : Quantity}
    (he : s.config.params.stepDelay.le e = true) :
    ∃ u, microStep offer e t = some u ∧ InMove s f1 f2 (n + 1) u := by
  obtain ⟨hp, -⟩ | ⟨hp, hplace⟩ := h.place
  · exact ⟨_, microStep_of_write hp offer e, h.writePin hp⟩
  · exact ⟨_, microStep_of_delay_le hp (h.config ▸ he) offer, h.delayEnd hp (by omega)⟩

/-- The last micro-step of the move is the end of its eighth delay. -/
theorem InMove.microStep_last (h : InMove s f1 f2 71 t) (offer : Option Instr) {e : Quantity}
    (he : s.config.params.stepDelay.le e = true) :
    Machine.microStep offer e t = some { move f1 f2 s with timer := t.timer } := by
  obtain ⟨-, hplace⟩ | ⟨hp, hplace⟩ := h.place
  · omega
  · rw [microStep_of_delay_le hp (h.config ▸ he), h.delayEnd_eq_move hp (by omega)]

theorem microRun_append (env rest : List (Option Instr × Quantity)) (s : State) :
    microRun (env ++ rest) s = (microRun env s).bind (microRun rest) := by
  induction env generalizing s with
  | nil => rfl
  | cons p env ih =>
    rw [List.cons_append, microRun, microRun]
    cases microStep p.1 p.2 s with
    | none => rfl
    | some t => exact ih t

theorem microRun_singleton (p : Option Instr × Quantity) (s : State) : microRun [p] s = microStep p.1 p.2 s := by
  rw [microRun]
  cases microStep p.1 p.2 s <;> rfl

/-- Short of the last micro-step the machine stays inside the move. -/
theorem InMove.microRun {env : List (Option Instr × Quantity)} (h : InMove s f1 f2 n t) (hn : n + env.length ≤ 71)
    (henv : ∀ p ∈ env, s.config.params.stepDelay.le p.2 = true) :
    ∃ u, microRun env t = some u ∧ InMove s f1 f2 (n + env.length) u := by
  induction env generalizing n t with
  | nil => exact ⟨t, rfl, h⟩
  | cons p env ih =>
    obtain ⟨hle, hrest⟩ := List.forall_mem_cons.1 henv
    rw [List.length_cons] at hn ⊢
    obtain ⟨u, hstep, hu⟩ := h.microStep (by omega) p.1 hle
    obtain ⟨v, hrun, hv⟩ := ih hu (by omega) hrest
    refine ⟨v, ?_, ?_⟩
    · rw [Machine.microRun, hstep]
      exact hrun
    · rwa [Nat.add_right_comm] at hv

/-- ACCEPT and 72 micro-steps end in the end state of `move`, the timer apart. -/
theorem microRun_move {env : List (Option Instr × Quantity)} (hlen : env.length = 72)
    (henv : ∀ p ∈ env, s.config.params.stepDelay.le p.2 = true) :
    ∃ k, microRun env (accept f1 f2 s) = some { move f1 f2 s with timer := k } := by
  obtain rfl | ⟨init, last, rfl⟩ := List.eq_nil_or_concat' env
  · cases hlen
  · rw [List.length_append, List.length_singleton] at hlen
    obtain ⟨hinit, hlast⟩ := List.forall_mem_append.1 henv
    obtain ⟨u, hrun, hu⟩ := (inMove_accept s f1 f2).microRun (env := init) (by omega) hinit
    have hplace : 0 + init.length = 71 := by omega
    rw [hplace] at hu
    refine ⟨u.timer, ?_⟩
    rw [microRun_append, hrun, Option.bind_some, microRun_singleton]
    exact hu.microStep_last last.1 (hlast last (List.mem_singleton_self last))

theorem microRun_accept (hp : s.phase = .idle) (i : Instr) (e : Quantity) (env : List (Option Instr × Quantity)) :
    microRun ((some i, e) :: env) s = microRun env (accept (flag1 i) (flag2 i) s) := by
  rw [microRun, microStep_of_idle hp]
  rfl

/-! ### A quiet environment -/

/-- What holds of the ports at each of the coming edges holds at the first and, after it, at the rest. -/
theorem forall_ports_succ {P : Inputs → Prop} (hq : P .quiet) (h : ∀ e ∈ s.inputs.take (n + 1), P e) :
    P (sample s) ∧ ∀ e ∈ (consume s).inputs.take n, P e := by
  rw [sample, consume_inputs]
  cases hin : s.inputs with
  | nil => exact ⟨hq, by simp⟩
  | cons a rest =>
    rw [hin, List.take_succ_cons] at h
    exact List.forall_mem_cons.1 h

/-- An idle machine in a quiet environment keeps everything but the schedule. -/
theorem edges_of_quiet (hp : s.phase = .idle) (hq : quietFor n s) :
    edges n s = .next { s with inputs := s.inputs.drop n } := by
  induction n generalizing s with
  | zero => rfl
  | succ n ih =>
    obtain ⟨⟨hr, hv⟩, hrest⟩ := forall_ports_succ ⟨rfl, rfl⟩ hq
    have hoffer : offered (sample s) = none := by rw [offered, hv]; rfl
    rw [edges_succ n s (consume s) (step_of_no_offer hr hp hoffer), ih (s := consume s) hp hrest,
      consume_inputs, List.drop_tail]
    rfl

/-- Settles O30: the 72 micro-steps keep the machine inside the move until the last, which is the end of the eighth
delay. -/
theorem microStepsMakeTheMove : Obligations.MicroStepsMakeTheMove := by
  refine ⟨fun s i e env hp hlen henv => ⟨fun n hn => ?_, ?_⟩, fun n s hp hq => edges_of_quiet hp hq⟩
  · have htaken : ∀ p ∈ env.take n, s.config.params.stepDelay.le p.2 = true :=
      fun p h => henv p (List.mem_of_mem_take h)
    obtain ⟨t, hrun, ht⟩ := (inMove_accept s (flag1 i) (flag2 i)).microRun (env := env.take n)
      (by rw [List.length_take]; omega) htaken
    exact ⟨t, (microRun_accept hp i e _).trans hrun, ht.busy⟩
  · obtain ⟨k, hrun⟩ := microRun_move (f1 := flag1 i) (f2 := flag2 i) hlen henv
    refine ⟨_, (microRun_accept hp i e env).trans hrun, abstractView_setTimer _ k, ?_⟩
    rw [move_eq]
    exact ⟨rfl, rfl, rfl, rfl, rfl, rfl, rfl, rfl⟩

end Sys2Proof.Safety
end

