-- ==== Sys2Proof/Proofs/ClockedMove.lean ====
section
/-! SUPPORT. The move edge by edge (70_reset_and_hazards.md R91): how many edges it has taken, when it ends, and the
runs of `step` and of `exec` that make it. -/

namespace Sys2Proof.Safety

open Sys2Proof.Machine

variable {s t : State} {f1 f2 : Bool} {m n : Nat}

/-! ### Edges since the acceptance -/

/-- The clock edges of one iteration: eight writes and the delay. -/
def iterationEdges (c : Config) : Nat := 8 + (delayCycles c + 1)

theorem iterationEdges_eq (c : Config) : iterationEdges c = 8 + (delayCycles c + 1) := rfl

theorem moveEdges_eq (c : Config) : moveEdges c = 8 * iterationEdges c + 1 := by
  rw [moveEdges, iterationEdges]
  omega

/-- The machine is busy, and `m` edges of its move come between the acceptance and its place. -/
def EdgesDone (m : Nat) (t : State) : Prop :=
  t.phase = .write ∧ m = t.idx.val * iterationEdges t.config + t.sub.val ∨
    t.phase = .delay ∧ t.timer ≤ delayCycles t.config ∧
      m + t.timer = t.idx.val * iterationEdges t.config + 8 + delayCycles t.config

theorem edgesDone_accept (s : State) (f1 f2 : Bool) : EdgesDone 0 (accept f1 f2 s) := by
  refine .inl ⟨rfl, ?_⟩
  simp

theorem EdgesDone.phase_ne_idle (h : EdgesDone m t) : t.phase ≠ .idle := by
  obtain ⟨hp, -⟩ | ⟨hp, -⟩ := h <;> simp [hp]

theorem EdgesDone.busy (h : EdgesDone m t) : busy t = true := decide_eq_true h.phase_ne_idle

/-- Every busy state that meets the control invariant is some number of edges into its move. -/
theorem exists_edgesDone (hc : controlOk t) (hp : t.phase ≠ .idle) : ∃ m, EdgesDone m t := by
  obtain ⟨-, hrunning⟩ := hc
  cases hphase : t.phase with
  | idle => exact absurd hphase hp
  | write => exact ⟨_, .inl ⟨hphase, rfl⟩⟩
  | delay =>
    obtain ⟨-, htimer⟩ := hrunning hphase
    exact ⟨t.idx.val * iterationEdges t.config + 8 + delayCycles t.config - t.timer,
      .inr ⟨hphase, htimer, by omega⟩⟩

/-- The iterations before the present one are at most seven. -/
theorem idx_mul_iterationEdges_le (t : State) :
    t.idx.val * iterationEdges t.config ≤ 7 * iterationEdges t.config :=
  Nat.mul_le_mul_right _ (by omega)

theorem EdgesDone.lt (h : EdgesDone m t) : m < 8 * iterationEdges t.config := by
  have hle := idx_mul_iterationEdges_le t
  have hD := iterationEdges_eq t.config
  obtain ⟨-, hm⟩ | ⟨-, -, hm⟩ := h <;> omega

theorem edgesDone_writePin (hp : t.phase = .write) (h : EdgesDone m t) : EdgesDone (m + 1) (writePin t) := by
  obtain ⟨-, hm⟩ | ⟨hd, -⟩ := h
  · by_cases hsub : t.sub = 7
    · refine .inr ⟨writePin_phase_of_eq hsub, ?_, ?_⟩ <;> rw [writePin_timer_of_eq hsub, writePin_config]
      rw [writePin_idx]
      omega
    · refine .inl ⟨(writePin_phase_of_ne hsub).trans hp, ?_⟩
      rw [writePin_idx, writePin_config, writePin_sub_of_ne hsub, val_add_one_of_ne_seven hsub]
      omega
  · simp [hd] at hp

theorem edgesDone_delayEnd (hp : t.phase = .delay) (htimer : t.timer = 0) (hidx : t.idx ≠ 7) (h : EdgesDone m t) :
    EdgesDone (m + 1) (delayEnd t) := by
  obtain ⟨hw, -⟩ | ⟨-, -, hm⟩ := h
  · simp [hw] at hp
  · refine .inl ⟨delayEnd_phase_of_ne hidx, ?_⟩
    rw [delayEnd_idx_of_ne hidx, delayEnd_config, delayEnd_sub_of_ne hidx, val_add_one_of_ne_seven hidx, Nat.succ_mul]
    have hD := iterationEdges_eq t.config
    simp only [Fin.val_zero]
    omega

theorem edgesDone_delayTick (hp : t.phase = .delay) (htimer : t.timer ≠ 0) (h : EdgesDone m t) :
    EdgesDone (m + 1) (delayTick t) := by
  obtain ⟨hw, -⟩ | ⟨-, hle, hm⟩ := h
  · simp [hw] at hp
  · refine .inr ⟨hp, ?_, ?_⟩ <;> simp only [delayTick_timer, delayTick_config, delayTick_idx] <;> omega

/-- The last edge of a move is the end of its eighth delay. -/
theorem EdgesDone.last (h : EdgesDone m t) (hm : m + 1 = 8 * iterationEdges t.config) :
    t.phase = .delay ∧ t.timer = 0 ∧ t.idx = 7 := by
  have hle := idx_mul_iterationEdges_le t
  have hD := iterationEdges_eq t.config
  obtain ⟨-, hw⟩ | ⟨hp, htimer, hd⟩ := h
  · omega
  · refine ⟨hp, by omega, ?_⟩
    by_contra hidx
    have hless : t.idx.val * iterationEdges t.config ≤ 6 * iterationEdges t.config :=
      Nat.mul_le_mul_right _ (by omega)
    omega

/-- Any edge but the last of a move keeps the machine busy. -/
theorem EdgesDone.moveEdge (h : EdgesDone m t) (hm : m + 1 < 8 * iterationEdges t.config) (g1 g2 : Bool) :
    EdgesDone (m + 1) (moveEdge g1 g2 t) := by
  rcases moveEdge_cases t g1 g2 with ⟨hp, -⟩ | ⟨hp, he⟩ | ⟨hp, htimer, he⟩ | ⟨hp, htimer, he⟩
  · exact absurd hp h.phase_ne_idle
  · exact he ▸ edgesDone_writePin hp h
  · refine he ▸ edgesDone_delayEnd hp htimer (fun hidx => ?_) h
    have hD := iterationEdges_eq t.config
    obtain ⟨hw, -⟩ | ⟨-, -, hd⟩ := h
    · simp [hw] at hp
    · have hval : t.idx.val = 7 := by rw [hidx]; rfl
      rw [hval] at hd
      omega
  · exact he ▸ edgesDone_delayTick hp htimer h

/-- The quotient of a division with remainder is unique. -/
theorem eq_of_mul_add_eq_mul_add {a b q r r' : Nat} (h : a * q + r = b * q + r') (hr : r < q) (hr' : r' < q) :
    a = b := by
  have hdiv : ∀ a r, r < q → (a * q + r) / q = a := fun a r hr => by
    rw [Nat.add_comm, Nat.add_mul_div_right r a (by omega), Nat.div_eq_of_lt hr, Nat.zero_add]
  calc a = (a * q + r) / q := (hdiv a r hr).symm
    _ = (b * q + r') / q := by rw [h]
    _ = b := hdiv b r' hr'

/-- Eight edges into iteration `k` its delay begins. -/
theorem EdgesDone.delay_point {k : Fin 8} (h : EdgesDone (k.val * iterationEdges t.config + 8) t) :
    t.phase = .delay ∧ t.idx = k := by
  have hD := iterationEdges_eq t.config
  obtain ⟨-, hw⟩ | ⟨hp, htimer, hd⟩ := h
  · have hk := eq_of_mul_add_eq_mul_add hw (by omega) (by omega)
    rw [hk] at hw
    omega
  · have hd' : k.val * iterationEdges t.config + (8 + t.timer) =
        t.idx.val * iterationEdges t.config + (8 + delayCycles t.config) := by omega
    exact ⟨hp, (Fin.ext (eq_of_mul_add_eq_mul_add hd' (by omega) (by omega))).symm⟩

/-! ### A number of edges -/

@[simp] theorem iterate_moveEdge_config (f1 f2 : Bool) (n : Nat) (t : State) :
    ((moveEdge f1 f2)^[n] t).config = t.config := by
  induction n generalizing t with
  | zero => rfl
  | succ n ih => rw [Function.iterate_succ_apply, ih, moveEdge_config]

theorem EdgesDone.iterate (h : EdgesDone m t) (hn : m + n < 8 * iterationEdges t.config) (g1 g2 : Bool) :
    EdgesDone (m + n) ((Machine.moveEdge g1 g2)^[n] t) := by
  induction n with
  | zero => exact h
  | succ n ih =>
    rw [Function.iterate_succ_apply']
    exact (ih (by omega)).moveEdge (by rw [iterate_moveEdge_config]; exact hn) g1 g2

/-- An edge that leaves the machine busy keeps it inside the move. -/
theorem InMove.moveEdge (h : InMove s f1 f2 n t) (g1 g2 : Bool) (hb : (moveEdge g1 g2 t).phase ≠ .idle) :
    ∃ n', InMove s f1 f2 n' (moveEdge g1 g2 t) := by
  rcases moveEdge_cases t g1 g2 with ⟨hp, -⟩ | ⟨hp, he⟩ | ⟨hp, -, he⟩ | ⟨-, -, he⟩
  · exact absurd hp (of_decide_eq_true h.busy)
  · exact ⟨_, he ▸ h.writePin hp⟩
  · by_cases hidx : t.idx = 7
    · exact absurd (he ▸ delayEnd_phase_of_eq hidx) hb
    · exact ⟨_, he ▸ h.delayEnd hp hidx⟩
  · exact ⟨_, he ▸ h.delayTick⟩

theorem edgesDone_iterate (s : State) (f1 f2 : Bool) (hm : m < 8 * iterationEdges s.config) :
    EdgesDone m ((moveEdge f1 f2)^[m] (accept f1 f2 s)) := by
  have h := (edgesDone_accept s f1 f2).iterate (n := m) (by rw [Nat.zero_add]; exact hm) f1 f2
  rwa [Nat.zero_add] at h

/-- Until its last edge the machine is inside the move that it accepted. -/
theorem inMove_iterate (s : State) (f1 f2 : Bool) (hm : m < 8 * iterationEdges s.config) :
    ∃ n, InMove s f1 f2 n ((moveEdge f1 f2)^[m] (accept f1 f2 s)) := by
  induction m with
  | zero => exact ⟨0, inMove_accept s f1 f2⟩
  | succ m ih =>
    obtain ⟨n, hin⟩ := ih (by omega)
    have hdone := edgesDone_iterate s f1 f2 hm
    rw [Function.iterate_succ_apply'] at hdone ⊢
    exact hin.moveEdge f1 f2 hdone.phase_ne_idle

/-- The last edge of a busy machine ends its delay of iteration 7. -/
theorem EdgesDone.moveEdge_last (h : EdgesDone m t) (hm : m + 1 = 8 * iterationEdges t.config) (g1 g2 : Bool) :
    t.phase = .delay ∧ t.timer = 0 ∧ t.idx = 7 ∧ Machine.moveEdge g1 g2 t = delayEnd t := by
  obtain ⟨hp, htimer, hidx⟩ := h.last hm
  exact ⟨hp, htimer, hidx, by rw [moveEdge_of_delay _ _ _ hp, if_pos htimer]⟩

/-- The edges after the acceptance end in the end state of `move` (41_move.md R62, 70_reset_and_hazards.md R91). -/
theorem iterate_moveEdge_accept (s : State) (f1 f2 : Bool) :
    (moveEdge f1 f2)^[8 * iterationEdges s.config] (accept f1 f2 s) = move f1 f2 s := by
  obtain ⟨m, hm⟩ : ∃ m, 8 * iterationEdges s.config = m + 1 := ⟨8 * iterationEdges s.config - 1, by
    rw [iterationEdges]; omega⟩
  have hdone := edgesDone_iterate s f1 f2 (m := m) (by omega)
  obtain ⟨n, hin⟩ := inMove_iterate s f1 f2 (m := m) (by omega)
  rw [hm, Function.iterate_succ_apply']
  obtain ⟨hp, htimer, hidx, he⟩ := hdone.moveEdge_last (by rw [hin.config]; exact hm.symm) f1 f2
  rw [he, hin.delayEnd_eq_move hp hidx, htimer, move_eq]

/-! ### Runs of the clocked machine -/

/-- No operation of a move reads the port schedule. -/
theorem moveEdge_consume (f1 f2 : Bool) (s : State) : moveEdge f1 f2 (consume s) = consume (moveEdge f1 f2 s) := by
  rcases moveEdge_cases s f1 f2 with ⟨hp, he⟩ | ⟨hp, he⟩ | ⟨hp, ht, he⟩ | ⟨hp, ht, he⟩ <;> rw [he]
  · rw [moveEdge_of_idle (consume s) f1 f2 hp]
    rfl
  · rw [moveEdge_of_write (consume s) f1 f2 hp]
    by_cases hsub : s.sub = 7
    · rw [writePin_of_eq s hsub, writePin_of_eq (consume s) hsub]; rfl
    · rw [writePin_of_ne s hsub, writePin_of_ne (consume s) hsub]; rfl
  · rw [moveEdge_of_delay (consume s) f1 f2 hp, consume_timer, if_pos ht]
    by_cases hidx : s.idx = 7
    · rw [delayEnd_of_eq s hidx, delayEnd_of_eq (consume s) hidx]; rfl
    · rw [delayEnd_of_ne s hidx, delayEnd_of_ne (consume s) hidx]; rfl
  · rw [moveEdge_of_delay (consume s) f1 f2 hp, consume_timer, if_neg ht]
    rfl

theorem iterate_moveEdge_consume (f1 f2 : Bool) (n : Nat) (s : State) :
    (moveEdge f1 f2)^[n] (consume s) = consume ((moveEdge f1 f2)^[n] s) :=
  Function.Commute.iterate_left (moveEdge_consume f1 f2) n s

theorem noReset_succ (h : noReset (n + 1) s) : (sample s).rst = false ∧ noReset n (consume s) :=
  forall_ports_succ (P := fun e => e.rst = false) rfl h

theorem noReset_of_le (h : noReset n s) (hm : m ≤ n) : noReset m s :=
  fun e he => h e ((List.take_sublist_take_left hm).subset he)

/-- Without a reset, as long as the machine is busy, its clock edges are those of its move. -/
theorem edges_eq_iterate (hr : noReset n t) (hb : ∀ j < n, ((moveEdge f1 f2)^[j] t).phase ≠ .idle) :
    edges n t = .next { (moveEdge f1 f2)^[n] t with inputs := t.inputs.drop n } := by
  induction n generalizing t with
  | zero => rfl
  | succ n ih =>
    obtain ⟨hrst, hrest⟩ := noReset_succ hr
    have hbusy : t.phase ≠ .idle := hb 0 (Nat.succ_pos n)
    have hstep : step t = .next (consume (moveEdge f1 f2 t)) := by
      rw [step_of_busy hrst hbusy, moveEdge_busy (consume t) t.f1 t.f2 hbusy f1 f2, moveEdge_consume]
    rw [edges_succ n _ _ hstep, ih (t := consume (moveEdge f1 f2 t)), iterate_moveEdge_consume,
      Function.iterate_succ_apply, consume_inputs, moveEdge_inputs, List.drop_tail]
    · rfl
    · rwa [noReset, consume_inputs, moveEdge_inputs]
    · intro j hj
      rw [iterate_moveEdge_consume, ← Function.iterate_succ_apply]
      exact hb (j + 1) (by omega)

/-- An accepted command and the edges after it. -/
theorem edges_of_offer {i : Instr} (hp : s.phase = .idle) (ho : offered (sample s) = some i)
    (hn : n ≤ 8 * iterationEdges s.config) (hr : noReset (n + 1) s) :
    edges (n + 1) s =
      .next { (moveEdge (flag1 i) (flag2 i))^[n] (accept (flag1 i) (flag2 i) s) with
        inputs := s.inputs.drop (n + 1) } := by
  obtain ⟨hrst, hrest⟩ := noReset_succ hr
  have haccept : accept (flag1 i) (flag2 i) (consume s) = consume (accept (flag1 i) (flag2 i) s) := rfl
  rw [edges_succ n _ _ (step_of_offer hrst hp ho), haccept,
    edges_eq_iterate (t := consume (accept (flag1 i) (flag2 i) s)) (f1 := flag1 i) (f2 := flag2 i) hrest,
    iterate_moveEdge_consume, consume_inputs, accept_inputs, List.drop_tail]
  · rfl
  · intro j hj
    exact (edgesDone_iterate (consume s) (flag1 i) (flag2 i) (hj.trans_le hn)).phase_ne_idle

/-- Settles O31: busy because edges of the move are still to come, and at the end the state that the edges of the move
end in. -/
theorem clockedMoveTakesMoveEdges : Obligations.ClockedMoveTakesMoveEdges := by
  intro s i hp ho hr
  rw [moveEdges_eq] at hr ⊢
  refine ⟨fun n hpos hn => ?_, ?_⟩
  · obtain ⟨m, rfl⟩ := Nat.exists_eq_add_of_le' hpos
    refine ⟨_, edges_of_offer hp ho (by omega) (noReset_of_le hr hn.le), ?_⟩
    exact (edgesDone_iterate s (flag1 i) (flag2 i) (m := m) (by omega)).busy
  · rw [edges_of_offer hp ho le_rfl hr, iterate_moveEdge_accept]

/-- Settles O36: the edges of the move still to come are at most those of a whole move. -/
theorem everyMoveEnds : Obligations.EveryMoveEnds := by
  intro s hc hb hr
  obtain ⟨m, hm⟩ := exists_edgesDone hc (of_decide_eq_true hb)
  obtain ⟨k, hk⟩ := Nat.exists_eq_add_of_lt hm.lt
  have hle : k + 1 ≤ moveEdges s.config := by rw [moveEdges_eq]; omega
  have hbusy : ∀ j ≤ k, EdgesDone (m + j) ((moveEdge s.f1 s.f2)^[j] s) := fun j hj => hm.iterate (by omega) _ _
  obtain ⟨-, -, hidx, he⟩ :=
    (hbusy k le_rfl).moveEdge_last (by rw [iterate_moveEdge_config]; exact hk.symm) s.f1 s.f2
  refine ⟨k + 1, hle, _, edges_eq_iterate (f1 := s.f1) (f2 := s.f2) (noReset_of_le hr hle) fun j hj =>
    (hbusy j (by omega)).phase_ne_idle, ?_⟩
  rw [Function.iterate_succ_apply', he]
  exact delayEnd_phase_of_eq hidx

/-! ### Runs of a command -/

theorem execMany_eq_iterate (i : Instr) (n : Nat) (s : State) :
    execMany i n s = .next ((moveEdge (flag1 i) (flag2 i))^[n] s) := by
  induction n generalizing s with
  | zero => rfl
  | succ n ih =>
    rw [execMany, exec_eq]
    exact ih _

theorem execMany_succ_of_idle (hp : s.phase = .idle) (i : Instr) (n : Nat) :
    execMany i (n + 1) s = .next ((moveEdge (flag1 i) (flag2 i))^[n] (accept (flag1 i) (flag2 i) s)) := by
  rw [execMany_eq_iterate, Function.iterate_succ_apply, moveEdge_of_idle s _ _ hp]

/-- Every command runs the whole move of its flags, edge by edge (41_move.md R48 to R51, R62). -/
theorem commandRuns_flags (i : Instr) :
    commandRuns i (flag1 i) (flag2 i) (sel1 (flag1 i)) (sel2 (flag2 i)) := by
  intro s hp
  refine ⟨?_, fun n hpos hn => ?_, fun k => ?_, ?_⟩
  · rw [exec_eq, moveEdge_of_idle s _ _ hp]
    rfl
  · obtain ⟨m, rfl⟩ := Nat.exists_eq_add_of_le' hpos
    rw [moveEdges_eq] at hn
    exact ⟨_, execMany_succ_of_idle hp i m, (edgesDone_iterate s _ _ (m := m) (by omega)).busy⟩
  · have hk : k.val * iterationEdges s.config ≤ 7 * iterationEdges s.config := Nat.mul_le_mul_right _ (by omega)
    have hlt : k.val * iterationEdges s.config + 8 < 8 * iterationEdges s.config := by
      have hD := iterationEdges_eq s.config
      omega
    have hcount : 9 + k.val * (8 + (delayCycles s.config + 1)) = k.val * iterationEdges s.config + 8 + 1 := by
      rw [iterationEdges]
      omega
    obtain ⟨n, hin⟩ := inMove_iterate s (flag1 i) (flag2 i) hlt
    have hdone := edgesDone_iterate s (flag1 i) (flag2 i) hlt
    obtain ⟨hphase, hidx⟩ := EdgesDone.delay_point (k := k) (by rw [hin.config]; exact hdone)
    refine ⟨_, hcount ▸ execMany_succ_of_idle hp i _, hphase, hidx, ?_⟩
    rw [hin.pins_of_delay hphase, hidx]
    rfl
  · rw [moveEdges_eq, execMany_succ_of_idle hp, iterate_moveEdge_accept, move_eq]
    rfl

/-! ### The four commands -/

theorem motorPins_pairPattern_one (r1 r2 : Row) : motorPins .one (pairPattern r1 r2) = r1 := packRow_rowCol r1

theorem motorPins_pairPattern_two (r1 r2 : Row) : motorPins .two (pairPattern r1 r2) = r2 := packRow_rowCol r2

/-- Settles O19: the run of every command, with DOWN's flags, and row 0 of the two tables. -/
theorem downRunsItsWholeMove : Obligations.DownRunsItsWholeMove :=
  ⟨rfl, commandRuns_flags .down, fwd_ne_bwd, fun c => by rw [tableRow_fwd_zero, tableRow_bwd_zero]; rfl⟩

/-- Settles O20: the run of every command, with UP's flags; the motors differ after the first write, to motor 1. -/
theorem upRunsItsWholeMove : Obligations.UpRunsItsWholeMove :=
  ⟨rfl, commandRuns_flags .up, fun r => ⟨motorPins_pairPattern_one r r, motorPins_pairPattern_two r r⟩,
    ⟨State.resetOf .ref, _, 2, rfl, by decide, rfl, rfl, by decide⟩, fun c => by rw [tableRow_fwd_zero]; rfl⟩

/-- Settles O21: the run of every command, with LEFT's flags; the motors differ after the fourth write, to motor 1. -/
theorem leftRunsItsWholeMove : Obligations.LeftRunsItsWholeMove :=
  ⟨rfl, commandRuns_flags .left, fun r => ⟨motorPins_pairPattern_one r r, motorPins_pairPattern_two r r⟩,
    ⟨State.resetOf .ref, _, 5, rfl, by decide, rfl, rfl, by decide⟩, fun c => by rw [tableRow_bwd_zero]; rfl⟩

/-- Settles O22: the run of every command, with RIGHT's flags, and the circular adjacency of the two tables. -/
theorem rightRunsItsWholeMove : Obligations.RightRunsItsWholeMove :=
  ⟨rfl, commandRuns_flags .right, fun c i => (fwd_ne_bwd c i).symm,
    fun c => ⟨popcount_row_seven_xor_row_zero c .bwd, popcount_row_seven_xor_row_zero c .fwd⟩,
    fun c => by rw [tableRow_bwd_zero, tableRow_fwd_zero]; rfl⟩

end Sys2Proof.Safety
end

