-- ==== Sys2Proof/Proofs/Interfaces.lean ====
section
/-! SUPPORT. The interfaces of SEQ (42_interfaces.md): the buttons of the input decoder (R64), the output ports (R65),
the handshake (R66) and the write monitor (R68). -/

namespace Sys2Proof

/-! ### The buttons (42_interfaces.md R64) -/

/-- The button of each command: the inverse of `buttonCommand`. -/
def commandButton : Instr → Button
  | .left => .left
  | .down => .down
  | .right => .right
  | .up => .up

theorem buttonCommand_commandButton (i : Instr) : buttonCommand (commandButton i) = i := by
  cases i <;> rfl

theorem commandButton_buttonCommand (b : Button) : commandButton (buttonCommand b) = b := by
  cases b <;> rfl

/-- Settles O6: a button mapped to a command is the one that the inverse gives. -/
theorem buttonsMapOneToOne : Obligations.ButtonsMapOneToOne := by
  refine fun i => ⟨commandButton i, buttonCommand_commandButton i, ?_⟩
  rintro b rfl
  exact (commandButton_buttonCommand b).symm

end Sys2Proof

namespace Sys2Proof.Machine

variable {s t : State}

/-! ### The output ports (42_interfaces.md R65) -/

/-- The port is logical pin 7 with the lower pins appended as low bits, one at a time. -/
theorem pinPort_eq_concat (p : Pins) :
    pinPort p = (((((((BitVec.ofBool p[7]).concat p[6]).concat p[5]).concat p[4]).concat p[3]).concat p[2]).concat
      p[1]).concat p[0] := rfl

theorem pinPort_getLsbD (p : Pins) (j : Fin 8) : (pinPort p).getLsbD j.val = p[j] := by
  rw [pinPort_eq_concat]
  fin_cases j <;> simp [BitVec.getElem_concat]

theorem busy_eq_not_cmdReady (s : State) : busy s = !cmdReady s := decide_not

/-- Settles O29: each port is a function of the state. -/
theorem portsShowTheState : Obligations.PortsShowTheState :=
  fun s => ⟨pinPort_getLsbD s.pins, decide_eq_true_iff, busy_eq_not_cmdReady s⟩

/-! ### The write monitor (42_interfaces.md R68) -/

/-- In `WRITE` the monitor shows the write of the coming edge. -/
theorem outputs_write_of_write (hr : (sample s).rst = false) (hp : s.phase = .write) :
    (outputs s).write = some (encodeSetPin s.sub (writeValue s.config s.f1 s.f2 s.idx s.sub)) := by
  simp [outputs, pinWe, hr, hp]

theorem outputs_write_of_ne_write (hp : s.phase ≠ .write) : (outputs s).write = none := by
  simp [outputs, pinWe, hp]

/-- DELAY-END records no write. -/
theorem delayEnd_trace_count_setPin (s : State) (j : Fin 8) (v : Bool) :
    (delayEnd s).trace.count (.setPin j v) = s.trace.count (.setPin j v) := by
  by_cases hidx : s.idx = 7
  · simp [delayEnd_trace_of_eq hidx]
  · simp [delayEnd_trace_of_ne hidx]

/-- Outside `WRITE` a clock edge without a reset writes no pin and records no write. -/
theorem step_writes_nothing (h : step s = .next t) (hr : (sample s).rst = false) (hp : s.phase ≠ .write) :
    t.pins = s.pins ∧ ∀ (j : Fin 8) (v : Bool), t.trace.count (.setPin j v) = s.trace.count (.setPin j v) := by
  rcases step_cases s t h with
    ⟨hrst, -⟩ | ⟨-, ⟨-, -, rfl⟩ | ⟨i, -, -, rfl⟩ | ⟨hw, -⟩ | ⟨-, -, rfl⟩ | ⟨-, -, rfl⟩⟩
  · simp [hr] at hrst
  · exact ⟨rfl, fun _ _ => rfl⟩
  · exact ⟨rfl, fun j v => by simp⟩
  · exact absurd hw hp
  · exact ⟨delayEnd_pins _, delayEnd_trace_count_setPin _⟩
  · exact ⟨rfl, fun _ _ => rfl⟩

/-- Settles O28: in `WRITE` the monitor's word is the write that the edge makes, and in the other phases there is
neither. -/
theorem pinsChangeOnlyWhereMonitored : Obligations.PinsChangeOnlyWhereMonitored := by
  intro s t h hr
  by_cases hp : s.phase = .write
  · rw [outputs_write_of_write hr hp]
    cases (step_of_write hp hr).symm.trans h
    refine ⟨?_, nofun⟩
    rintro w ⟨⟩
    simp only [decodeSetPin_encodeSetPin, true_and]
    exact ⟨writePin_pins _, writePin_trace _, hp⟩
  · rw [outputs_write_of_ne_write hp]
    exact ⟨nofun, fun _ => step_writes_nothing h hr hp⟩

/-! ### The port schedule -/

/-- A clock edge takes its port values off the schedule, whatever it does. -/
theorem step_inputs (h : step s = .next t) : t.inputs = s.inputs.tail := by
  rcases step_cases s t h with
    ⟨-, rfl⟩ | ⟨-, ⟨-, -, rfl⟩ | ⟨i, -, -, rfl⟩ | ⟨-, rfl⟩ | ⟨-, -, rfl⟩ | ⟨-, -, rfl⟩⟩ <;> simp

end Sys2Proof.Machine

namespace Sys2Proof.Safety

open Sys2Proof.Machine

variable {s t : State} {n : Nat}

theorem edges_inputs (h : edges n s = .next t) : t.inputs = s.inputs.drop n := by
  induction n generalizing s with
  | zero => cases h; rfl
  | succ n ih =>
    obtain ⟨u, hstep, hrun⟩ := exists_step_of_run_succ h
    rw [ih hrun, step_inputs hstep, List.drop_tail]

/-! ### The handshake (42_interfaces.md R66) -/

/-- An offer held for `n` edges is what each of them samples. -/
theorem sample_of_offersHeld {w : Cmd2} {k : Nat} (hheld : offersHeld w n s) (hk : k < n)
    (h : edges k s = .next t) : sample t = ⟨false, true, w⟩ := by
  rw [sample, edges_inputs h, List.head?_drop, hheld k hk]
  rfl

theorem noReset_of_offersHeld {w : Cmd2} (hheld : offersHeld w n s) : noReset n s := by
  intro e he
  obtain ⟨k, hk, rfl⟩ := List.mem_take_iff_getElem.1 he
  have hport := hheld k (by omega)
  rw [List.getElem?_eq_getElem (by omega), Option.some.injEq] at hport
  rw [hport]

/-- Without a reset the machine is idle within the edges of one move, at once where none is in flight. -/
theorem exists_idle_edge (hc : controlOk s) (hr : noReset (moveEdges s.config) s) :
    ∃ n, n ≤ moveEdges s.config ∧ ∃ t, edges n s = .next t ∧ t.phase = .idle := by
  by_cases hp : s.phase = .idle
  · exact ⟨0, Nat.zero_le _, s, edges_zero s, hp⟩
  · exact everyMoveEnds s hc (decide_eq_true hp) hr

/-- Settles O37: at the idle edge that ends the move in flight the offer is still held, and it is run. -/
theorem heldOfferIsAccepted : Obligations.HeldOfferIsAccepted := by
  intro s w hc hheld
  obtain ⟨n, hn, t, hrun, hp⟩ :=
    exists_idle_edge hc (noReset_of_le (noReset_of_offersHeld hheld) (Nat.le_succ _))
  exact ⟨n, hn, t, hrun, hp, step_eq_exec_of_word hp (sample_of_offersHeld hheld (Nat.lt_succ_of_le hn) hrun)⟩

end Sys2Proof.Safety
end

