-- ==== Sys2Proof/Proofs/Exceptions.lean ====
section
/-! SUPPORT. No fault, events that coincide, the clocked delay, and resets anywhere in a run (60_exceptions.md R70,
R72, R76). -/

namespace Sys2Proof.Machine

variable {s s' t : State}

/-! ### No fault (60_exceptions.md R70) -/

theorem exists_step (s : State) : ∃ t, step s = .next t := by
  by_cases hr : (sample s).rst = true
  · exact ⟨_, step_of_rst s hr⟩
  · cases hc : current s with
    | none => exact ⟨_, step_of_current_none s hr hc⟩
    | some i => exact ⟨_, step_of_current_some s hr hc⟩

/-- Settles O24: a reset, an edge without a command and a command each answer a next state. -/
theorem nothingEverFails : Obligations.NothingEverFails :=
  ⟨exists_step, fun i s => ⟨_, exec_eq s i⟩⟩

/-! ### Coinciding events (60_exceptions.md R72) -/

/-- Settles O26: the edge that ends the eighth delay is DELAY-END whatever is offered, and at the edge after it the
machine is idle and takes the word offered there. -/
theorem resetThenMicroStepThenOffer : Obligations.ResetThenMicroStepThenOffer := by
  refine ⟨step_of_rst, fun s w w' rest hp ht hidx hin => ?_⟩
  have hend : step s = .next (delayEnd (consume s)) := step_of_delay_zero hp ht (by rw [sample, hin]; rfl)
  have hphase : (delayEnd (consume s)).phase = .idle := delayEnd_phase_of_eq hidx
  have hword : sample (delayEnd (consume s)) = ⟨false, true, w'⟩ := by
    rw [sample, delayEnd_inputs, consume_inputs, hin]
    rfl
  refine ⟨_, _, hend, hphase, delayEnd_f1 _, delayEnd_f2 _, delayEnd_trace_of_eq hidx, step_of_word hphase hword,
    rfl, ?_⟩
  rw [accept_decode]
  rfl

/-! ### One step at the abstract level (41_move.md R52) -/

theorem eq_delayEnd_of_microStep (hp : s.phase = .delay) {offer : Option Instr} {e : Quantity}
    (h : microStep offer e s = some t) : t = delayEnd s := by
  rw [microStep_of_delay hp, Option.ite_none_right_eq_some] at h
  obtain ⟨-, h⟩ := h
  exact (Option.some.inj h).symm

/-- The enabled micro-step is unique: the phase says which it is, in `IDLE` with the offer. -/
theorem microStep_unique {t' : State} {offer offer' : Option Instr} {e e' : Quantity}
    (h : microStep offer e s = some t) (h' : microStep offer' e' s = some t')
    (ho : s.phase = .idle → offer = offer') : t = t' := by
  cases hp : s.phase with
  | idle =>
    rw [microStep_of_idle hp, ho hp] at h
    rw [microStep_of_idle hp] at h'
    exact Option.some.inj (h.symm.trans h')
  | write =>
    rw [microStep_of_write hp] at h h'
    exact Option.some.inj (h.symm.trans h')
  | delay => exact (eq_delayEnd_of_microStep hp h).trans (eq_delayEnd_of_microStep hp h').symm

/-- Settles O43: a reset in the middle of a run starts the rest of it from the reset state, with the constants and the
schedule that no run changes. -/
theorem resetMayInterleaveAnywhere : Obligations.ResetMayInterleaveAnywhere := by
  refine ⟨fun s => ⟨applyReset s, rfl, rfl, rfl, rfl, rfl, rfl, rfl, fun _ => rfl, rfl, rfl, rfl⟩,
    fun before later s t h => ?_, fun s t t' offer offer' e e' h h' ho => microStep_unique h h' ho⟩
  obtain ⟨hconfig, hinputs⟩ := abstractRun_frame h
  rw [abstractRun_append, h, Option.bind_some, abstractRun_cons, abstractStep_reset, Option.bind_some, applyReset,
    hconfig, hinputs]

/-! ### States with one abstract view (42_interfaces.md section 2) -/

/-- What the abstract machine sees of a state decides which steps are enabled and what it sees after them. -/
theorem exists_abstractStep_of_view (hv : abstractView s' = abstractView s) {a : AbstractAction}
    (h : abstractStep a s = some t) : ∃ t', abstractStep a s' = some t' ∧ abstractView t' = abstractView t := by
  rw [← Option.map_eq_some_iff, ← abstractStep_view, hv, abstractStep_view, h]
  rfl

theorem exists_abstractRun_of_view (hv : abstractView s' = abstractView s) {run : List AbstractAction}
    (h : abstractRun run s = some t) :
    ∃ t', abstractRun run s' = some t' ∧ abstractView t' = abstractView t := by
  induction run generalizing s s' with
  | nil => cases h; exact ⟨s', rfl, hv⟩
  | cons a run ih =>
    rw [abstractRun_cons, Option.bind_eq_some_iff] at h
    obtain ⟨u, hstep, hrun⟩ := h
    obtain ⟨u', hstep', hu⟩ := exists_abstractStep_of_view hv hstep
    obtain ⟨t', hrun', ht⟩ := ih hu hrun
    exact ⟨t', by rw [abstractRun_cons, hstep', Option.bind_some, hrun'], ht⟩

theorem abstractRun_singleton (a : AbstractAction) (s : State) : abstractRun [a] s = abstractStep a s := by
  rw [abstractRun_cons]
  cases abstractStep a s <;> rfl

/-- A clock edge is at most one step at the abstract level, a reset exactly where its ports say so. -/
theorem exists_abstractRun_of_step (h : step s = .next t) :
    ∃ (run : List AbstractAction) (u : State), run.length ≤ 1 ∧ abstractRun run s = some u ∧
      abstractView u = abstractView t ∧ run.count .reset = (sample s).rst.toNat := by
  cases hr : (sample s).rst with
  | true =>
    cases (step_of_rst s hr).symm.trans h
    exact ⟨[.reset], applyReset s, le_rfl, rfl, rfl, rfl⟩
  | false =>
    rcases clockRefinesMicroSteps s t h with ⟨hrst, -⟩ | ⟨-, hmicro⟩ | hview
    · simp [hr] at hrst
    · obtain ⟨u, hu, hut⟩ := exists_abstractStep_of_view (s' := s) (s := consume s) (a := .micro _ _) rfl hmicro
      exact ⟨[_], u, le_rfl, (abstractRun_singleton _ s).trans hu, hut, rfl⟩
    · exact ⟨[], s, Nat.zero_le 1, rfl, hview.symm, rfl⟩

/-! ### The clocked delay (60_exceptions.md R76) -/

theorem step_of_delay_running (hp : s.phase = .delay) (ht : s.timer ≠ 0) (hr : (sample s).rst = false) :
    step s = .next (delayTick (consume s)) := by
  rw [step_of_busy hr (by simp [hp]), moveEdge_of_delay (consume s) _ _ hp, consume_timer, if_neg ht]

end Sys2Proof.Machine

namespace Sys2Proof.Safety

open Sys2Proof.Machine

variable {s t : State} {n : Nat}

/-! ### The delay edge by edge (60_exceptions.md R76) -/

/-- After the first edges of a run come the rest of them, in any machine behind the host's interface. -/
theorem run_add {M : Host.Core} {m : Nat} {s t : M.State} (h : M.run m s = .next t) (n : Nat) :
    M.run (m + n) s = M.run n t := by
  induction m generalizing s with
  | zero => cases h; rw [Nat.zero_add]
  | succ m ih =>
    obtain ⟨u, hstep, hrun⟩ := exists_step_of_run_succ h
    rw [Nat.add_right_comm, run_succ M _ s u hstep, ih hrun]

/-- One more edge last. -/
theorem edges_succ_last {u : State} (h : edges n s = .next t) (hstep : step t = .next u) :
    edges (n + 1) s = .next u :=
  (run_add (M := Sys2Proof.core) h 1).trans (edges_succ 0 t u hstep)

theorem noReset_drop {m : Nat} (h : noReset (m + n) s) : noReset n { s with inputs := s.inputs.drop m } := by
  intro e he
  rw [List.take_drop] at he
  exact h e (List.mem_of_mem_drop he)

/-- As long as the timer has not run out, each edge takes one off it and changes nothing else. -/
theorem edges_of_delay (hp : s.phase = .delay) (hn : n ≤ s.timer) (hr : noReset n s) :
    edges n s = .next { s with inputs := s.inputs.drop n, timer := s.timer - n } := by
  induction n with
  | zero => rfl
  | succ n ih =>
    obtain ⟨hrst, -⟩ := noReset_succ (noReset_drop hr)
    rw [edges_succ_last (ih (by omega) (noReset_of_le hr (Nat.le_succ n)))
      (step_of_delay_running hp (Nat.sub_ne_zero_of_lt hn) hrst), delayTick, consume, List.tail_drop]
    rfl

/-- Settles O16: the timer runs down edge by edge from `DELAY_CYCLES`, and at 0 the edge is DELAY-END. -/
theorem delayLastsDelayCyclesPlusOne : Obligations.DelayLastsDelayCyclesPlusOne := by
  intro s hp ht hr
  have hrun : ∀ n ≤ delayCycles s.config,
      edges n s = .next { s with inputs := s.inputs.drop n, timer := delayCycles s.config - n } := fun n hn => by
    rw [edges_of_delay hp (ht ▸ hn) (noReset_of_le hr (by omega)), ht]
  refine ⟨hrun, ?_, stepDelay_le_cyclesTime s.config⟩
  obtain ⟨hrst, -⟩ := noReset_succ (noReset_drop hr)
  rw [edges_succ_last (hrun _ le_rfl) (step_of_delay_zero hp (Nat.sub_self _) hrst), consume, List.tail_drop,
    Nat.sub_self]

/-! ### Runs with resets anywhere (60_exceptions.md R72) -/

theorem abstractInv_abstractStep {a : AbstractAction} (h : AbstractInv s) (hstep : abstractStep a s = some t) :
    AbstractInv t := by
  cases a with
  | reset => cases hstep; exact abstractInv_applyReset h
  | micro offer e => exact everyMicroStepKeepsTheInvariant s t offer e h hstep

/-- Settles O44, by induction on the run. -/
theorem abstractRunsKeepTheInvariant : Obligations.AbstractRunsKeepTheInvariant := by
  intro run
  induction run with
  | nil =>
    intro s t h hrun
    cases hrun
    exact h
  | cons a run ih =>
    intro s t h hrun
    rw [abstractRun_cons, Option.bind_eq_some_iff] at hrun
    obtain ⟨u, hstep, hrest⟩ := hrun
    exact ih u t (abstractInv_abstractStep h hstep) hrest

/-- The resets among the coming edges are the one at the next edge, if there is one, and those after it. -/
theorem resets_take_succ (n : Nat) (s : State) :
    ((s.inputs.take (n + 1)).filter (·.rst)).length =
      (sample s).rst.toNat + ((s.inputs.tail.take n).filter (·.rst)).length := by
  rw [sample]
  cases s.inputs with
  | nil => simp [Inputs.quiet]
  | cons a rest => cases hr : a.rst <;> simp [hr, Nat.add_comm]

/-- Settles O45, by induction on the edges: the step that the first edge makes, if any, and then the run of the rest,
carried over to the state that the step leads to. -/
theorem clockedRunsAreAbstractRuns : Obligations.ClockedRunsAreAbstractRuns := by
  intro n
  induction n with
  | zero =>
    intro s t h
    cases h
    exact ⟨[], s, le_rfl, rfl, rfl, rfl⟩
  | succ n ih =>
    intro s t h
    obtain ⟨v, hstep, hrest⟩ := exists_step_of_run_succ h
    obtain ⟨first, v', hfirst, hv', hview, hreset⟩ := exists_abstractRun_of_step hstep
    obtain ⟨rest, u, hlen, hu, hut, hcount⟩ := ih v t hrest
    obtain ⟨u', hu', huu⟩ := exists_abstractRun_of_view hview hu
    refine ⟨first ++ rest, u', ?_, ?_, huu.trans hut, ?_⟩
    · rw [List.length_append]
      omega
    · rw [abstractRun_append, hv', Option.bind_some, hu']
    · rw [List.count_append, hreset, hcount, resets_take_succ, step_inputs hstep]

end Sys2Proof.Safety
end

