-- ==== Sys2Proof/Proofs/Reset.lean ====
section
/-! SUPPORT. The reset state, the move that a reset aborts, and the one edge at which a move ends by itself
(70_reset_and_hazards.md R82, R83). -/

namespace Sys2Proof.Machine

variable {s : State}

theorem busy_eq_false_iff : busy s = false ↔ s.phase = .idle := by
  simp [busy]

theorem sample_of_inputs_cons {a : Inputs} {rest : List Inputs} (h : s.inputs = a :: rest) : sample s = a := by
  rw [sample, h]
  rfl

theorem offered_of_invalid {b : Inputs} (h : b.cmdValid = false) : offered b = none := by
  simp [offered, h]

theorem offered_of_cmdValid {b : Inputs} (h : b.cmdValid = true) : offered b = some (decode b.cmd) := by
  simp [offered, h]

/-! ### Reset (70_reset_and_hazards.md R82) -/

/-- Settles O25: the edge is `applyReset`, each field of which is a field of the reset state, as the initial state's
are. -/
theorem resetFromAnyState : Obligations.ResetFromAnyState :=
  ⟨fun s hr =>
      ⟨applyReset (consume s), step_of_rst s hr, rfl, rfl, rfl, rfl, rfl, rfl, fun _ => rfl, rfl, rfl, rfl, rfl⟩,
    rfl, rfl, rfl, rfl, rfl, rfl, fun _ => rfl, rfl⟩

end Sys2Proof.Machine

namespace Sys2Proof.Safety

open Sys2Proof.Machine

variable {s t : State}

/-- The empty trace is legal between moves, and an idle machine at the reset values owes nothing else. -/
theorem inv_resetOf (c : Config) : Inv (State.resetOf c) :=
  ⟨⟨fun _ => rfl, nofun⟩, pinsOk_of_idle rfl, fun _ => .inl ⟨rfl, rfl, rfl, rfl, rfl⟩, rfl⟩

/-- Settles O38: the machine's own reset state is that of one configuration. -/
theorem invariantAtReset : Obligations.InvariantAtReset :=
  ⟨inv_resetOf, inv_resetOf Config.board⟩

/-! ### The end of a move (70_reset_and_hazards.md R83) -/

/-- Without a reset the one edge that takes a busy machine to `IDLE` is DELAY-END of iteration 7. -/
theorem move_ends_with_eighth_delay (hb : busy s = true) (hr : (sample s).rst = false) (h : step s = .next t)
    (hidle : t.phase = .idle) : s.phase = .delay ∧ s.idx = 7 ∧ s.timer = 0 ∧ t = delayEnd (consume s) := by
  rcases step_cases_of_busy hb hr h with ⟨hp, rfl⟩ | ⟨hp, htimer, rfl⟩ | ⟨hp, -, rfl⟩
  · exact absurd hidle (writePin_phase_ne_idle hp)
  · by_cases hidx : s.idx = 7
    · exact ⟨hp, hidx, htimer, rfl⟩
    · have hnext : (delayEnd (consume s)).phase = .write := delayEnd_phase_of_ne hidx
      simp [hnext] at hidle
  · simp [hp] at hidle

/-! ### The edge after a reset -/

/-- An edge of an idle machine: an offer starts a move at row 0, and without one nothing changes but the schedule.
Neither writes a pin. -/
theorem exists_step_of_idle (hr : (sample s).rst = false) (hp : s.phase = .idle) :
    ∃ u, step s = .next u ∧ u.pins = s.pins ∧
      ((sample s).cmdValid = false → u = consume s) ∧
      ((sample s).cmdValid = true → u.phase = .write ∧ u.idx = 0 ∧ u.sub = 0) := by
  cases hv : (sample s).cmdValid with
  | false => exact ⟨_, step_of_no_offer hr hp (offered_of_invalid hv), rfl, fun _ => rfl, nofun⟩
  | true => exact ⟨_, step_of_offer hr hp (offered_of_cmdValid hv), rfl, nofun, fun _ => ⟨rfl, rfl, rfl⟩⟩

/-- Settles O27: a move that is not reset ends with the eighth delay; a reset leaves an idle machine, and the edge after
it is an idle machine's, which remembers nothing of the move. -/
theorem resetAbortsTheMove : Obligations.ResetAbortsTheMove := by
  refine ⟨fun s t hb hr h hidle => ?_, fun s a b rest _ ha hb hin => ?_⟩
  · obtain ⟨hp, hidx, htimer, rfl⟩ := move_ends_with_eighth_delay hb hr h (busy_eq_false_iff.1 hidle)
    exact ⟨hp, hidx, htimer, delayEnd_trace_of_eq hidx⟩
  · have hreset : step s = .next (applyReset (consume s)) := step_of_rst s (by rw [sample_of_inputs_cons hin, ha])
    have hrest : (applyReset (consume s)).inputs = b :: rest := by
      rw [applyReset_inputs, consume_inputs, hin, List.tail_cons]
    obtain ⟨u, hstep, hpins, hquiet, hoffer⟩ :=
      exists_step_of_idle (s := applyReset (consume s)) (by rw [sample_of_inputs_cons hrest, hb]) rfl
    rw [sample_of_inputs_cons hrest] at hquiet hoffer
    refine ⟨_, u, hreset, hstep, rfl, by simp, rfl, rfl, hpins, fun hv => ?_, hoffer⟩
    rw [hquiet hv, consume, hrest, List.tail_cons]

end Sys2Proof.Safety
end
